-- ==== Sys2Proof/Word.lean ====
section
/-! DEFINITION. The word types: the byte of memory and of every register, and the program counter. -/

namespace Sys2Proof

/-- A byte: a memory cell, a general register, FL, a latch, an operand (10_state.md R21, R25, R28, R32). Unsigned, 0 to 255,
bit 0 least significant (00_scope.md R7). -/
abbrev Byte := BitVec 8

/-- The program counter, 9 bits (10_state.md R24). -/
abbrev Pc := BitVec 9

/-- The index of a general register, 0 to 7 (10_state.md R20). -/
abbrev RegIndex := Fin 8

end Sys2Proof
end

