-- ==== Sys2Proof/Syntax.lean ====
section
/-! DEFINITION. The instruction set: the 13 instructions of 30_encoding.md R66, one constructor per row of the opcode table. -/

namespace Sys2Proof

/-- An operand byte that names a register (30_encoding.md R63). The whole byte is kept: values above 7 are legal bytes of the
encoding, and the instruction's body faults on them (40_fetch_decode_execute.md R86). -/
abbrev RegOperand := Byte

/-- An operand byte that is the value itself, 0 to 255 (30_encoding.md R63, R64). -/
abbrev Imm8 := Byte

/-- The 13 instructions (30_encoding.md R66). Operands stand in memory order: operand a is byte p+1, operand b byte p+2 (R71). An
unused operand is no field. -/
inductive Instr where
  | hlt
  | ldi (a : RegOperand) (imm : Imm8)
  | prn (a : RegOperand)
  | add (a b : RegOperand)
  | mul (a b : RegOperand)
  | div (a b : RegOperand)
  | cmp (a b : RegOperand)
  | and (a b : RegOperand)
  | push (a : RegOperand)
  | pop (a : RegOperand)
  | jmp (a : RegOperand)
  | jeq (a : RegOperand)
  | jne (a : RegOperand)
  deriving DecidableEq, Repr

end Sys2Proof
end

