-- ==== Sys2Proof/WellFormed.lean ====
section
/-! DEFINITION. When an instruction is well formed: every register operand it uses names a register. -/

namespace Sys2Proof

/-- The register operand bytes an instruction uses, in the order the body checks them: operand a before operand b
(30_encoding.md R66, 40_fetch_decode_execute.md R86). LDI's operand b is an immediate and is not among them. -/
def Instr.registerOperands : Instr → List RegOperand
  | .hlt => []
  | .ldi a _ => [a]
  | .prn a => [a]
  | .add a b => [a, b]
  | .mul a b => [a, b]
  | .div a b => [a, b]
  | .cmp a b => [a, b]
  | .and a b => [a, b]
  | .push a => [a]
  | .pop a => [a]
  | .jmp a => [a]
  | .jeq a => [a]
  | .jne a => [a]

/-- The byte names a register: it is 0 to 7 (30_encoding.md R63). -/
def namesRegister (v : RegOperand) : Bool := decide (v.toNat < 8)

/-- Every register operand is 0 to 7 (30_encoding.md R63). An ill-formed instruction still decodes and runs: it takes the
OutOfBounds fault (40_fetch_decode_execute.md R86). -/
def Instr.wellFormed (i : Instr) : Bool := i.registerOperands.all namesRegister

end Sys2Proof
end

