-- ==== Sys2Proof/Decode.lean ====
section
/-! DEFINITION. The opcode map, the decoder, the encoder, and the host's view of one table word (30_encoding.md). -/

namespace Sys2Proof

/-! The parameter OPCODE_MAP (30_encoding.md R66). The bytes of HLT, LDI, PRN and ADD are the source's; the other nine are the
spec's defaults, which it takes from general knowledge (92_eei_decisions.md D6): UNVERIFIED, log entry 5, unsafe. -/

def opHLT : Byte := 0b00000001#8
def opLDI : Byte := 0b10000010#8
def opPRN : Byte := 0b01000111#8
def opADD : Byte := 0b10100000#8
def opMUL : Byte := 0b10100010#8
def opDIV : Byte := 0b10100011#8
def opCMP : Byte := 0b10100111#8
def opAND : Byte := 0b10101000#8
def opPUSH : Byte := 0b01000101#8
def opPOP : Byte := 0b01000110#8
def opJMP : Byte := 0b01010100#8
def opJEQ : Byte := 0b01010101#8
def opJNE : Byte := 0b01010110#8

/-- `n`, the operand count: IR[7:6] (30_encoding.md R60, 40_fetch_decode_execute.md R83). -/
def operandCount (ir : Byte) : Nat := (ir >>> 6).toNat

/-- `alu`: IR[5] (30_encoding.md R60, 40_fetch_decode_execute.md R83). -/
def isAlu (ir : Byte) : Bool := ir.getLsbD 5

/-- Why a byte spells no instruction (30_encoding.md R69). -/
inductive DecodeError where
  /-- IR[5] = 0 and no handler (42_control_and_stack.md R128). -/
  | unsupportedOpcode (ir : Byte)
  /-- IR[5] = 1 and no ALU operation (41_alu.md R105). -/
  | unsupportedALUOperation (ir : Byte)
  deriving DecidableEq, Repr

/-- The ALU's case on the whole byte (40_fetch_decode_execute.md R85, 30_encoding.md R67). -/
def decodeAlu (ir a b : Byte) : Except DecodeError Instr :=
  if ir = opCMP then .ok (.cmp a b)
  else if ir = opADD then .ok (.add a b)
  else if ir = opMUL then .ok (.mul a b)
  else if ir = opAND then .ok (.and a b)
  else if ir = opDIV then .ok (.div a b)
  else .error (.unsupportedALUOperation ir)

/-- The handler table's case on the whole byte (40_fetch_decode_execute.md R85, 30_encoding.md R67). -/
def decodeHandler (ir a b : Byte) : Except DecodeError Instr :=
  if ir = opLDI then .ok (.ldi a b)
  else if ir = opPRN then .ok (.prn a)
  else if ir = opPUSH then .ok (.push a)
  else if ir = opPOP then .ok (.pop a)
  else if ir = opJEQ then .ok (.jeq a)
  else if ir = opJNE then .ok (.jne a)
  else if ir = opJMP then .ok (.jmp a)
  else if ir = opHLT then .ok .hlt
  else .error (.unsupportedOpcode ir)

/-- The decoder, total on the three fetched bytes IR, A and B (40_fetch_decode_execute.md R83, R85). The bytes a short
instruction does not own are ignored (30_encoding.md R62). -/
def decode (ir a b : Byte) : Except DecodeError Instr :=
  if isAlu ir then decodeAlu ir a b else decodeHandler ir a b

/-- The decoder on the bytes at an instruction's address in ascending order (20_memory.md R44), absent bytes read as 0. -/
def decodeBytes (bytes : List Byte) : Except DecodeError Instr :=
  decode (bytes.getD 0 0) (bytes.getD 1 0) (bytes.getD 2 0)

/-- The first byte of an instruction (30_encoding.md R66). -/
def Instr.opcode : Instr → Byte
  | .hlt => opHLT
  | .ldi _ _ => opLDI
  | .prn _ => opPRN
  | .add _ _ => opADD
  | .mul _ _ => opMUL
  | .div _ _ => opDIV
  | .cmp _ _ => opCMP
  | .and _ _ => opAND
  | .push _ => opPUSH
  | .pop _ => opPOP
  | .jmp _ => opJMP
  | .jeq _ => opJEQ
  | .jne _ => opJNE

/-- The bytes of an instruction, in ascending addresses (30_encoding.md R62, R66; 20_memory.md R44). -/
def encode : Instr → List Byte
  | .hlt => [opHLT]
  | .ldi a imm => [opLDI, a, imm]
  | .prn a => [opPRN, a]
  | .add a b => [opADD, a, b]
  | .mul a b => [opMUL, a, b]
  | .div a b => [opDIV, a, b]
  | .cmp a b => [opCMP, a, b]
  | .and a b => [opAND, a, b]
  | .push a => [opPUSH, a]
  | .pop a => [opPOP, a]
  | .jmp a => [opJMP, a]
  | .jeq a => [opJEQ, a]
  | .jne a => [opJNE, a]

/-- The three bytes a fetch reads for a word numbered as the opcode table numbers it: bits 7..0 are the first byte, bits 15..8
the second, bits 23..16 the third; every bit from `nbits` up is 0. -/
def tableWordBytes (nbits w : Nat) : List Byte :=
  let v := w % 2 ^ nbits
  [BitVec.ofNat 8 v, BitVec.ofNat 8 (v / 256), BitVec.ofNat 8 (v / 65536)]

/-- The instruction the decoder reads from a table word, none where it refuses. -/
def decodeTableWord (nbits w : Nat) : Option Instr :=
  match decodeBytes (tableWordBytes nbits w) with
  | .ok i => some i
  | .error _ => none

end Sys2Proof
end

