-- ==== Sys2Proof/Config.lean ====
section
/-! DEFINITION. The implementation parameters of 00_scope.md R6, each at the value the spec gives it. NREG = 8 and W = 8 are
in the types RegIndex and Byte; the parameter OPCODE_MAP is the table of opcode bytes in Decode.lean. -/

namespace Sys2Proof.Config

/-- MEM_SIZE: 256 bytes, addresses 0 to 255 (00_scope.md R6, 10_state.md R32). -/
abbrev memSize : Nat := 256

/-- SP_INDEX: register 7 is the stack pointer (00_scope.md R6, 10_state.md R22). -/
abbrev spIndex : RegIndex := 7

/-- SP_INIT: the stack pointer's reset value (00_scope.md R6, 10_state.md R34). -/
abbrev spInit : Byte := 0xF4#8

/-- SP_LIMIT: POP faults when SP is at or above it (00_scope.md R6, 42_control_and_stack.md R123). A Nat because the spec lets
the parameter go up to 256. -/
abbrev spLimit : Nat := 0xF4

end Sys2Proof.Config
end

