-- ==== Sys2Proof/Machine/State.lean ====
section
/-! DEFINITION. The state of the core, all of 10_state.md, as plain data; its value at reset; the reasons a step can stop. -/

namespace Sys2Proof.Machine

/-- The run status (10_state.md R29). -/
inductive RunStatus where
  | running
  | halted
  | faulted
  deriving DecidableEq, Repr

/-- The six faults the core can raise (60_exceptions.md R151). -/
inductive FaultCause where
  | unsupportedOpcode
  | unsupportedALUOperation
  | divisionByZero
  | outOfBounds
  | stackOverflow
  | stackUnderflow
  deriving DecidableEq, Repr

/-- The "info recorded" column of 60_exceptions.md R151. No rule reads it. -/
inductive FaultInfo where
  | ir (v : Byte)
  | divisorRegister (b : RegIndex)
  | address (a : Nat)
  | registerIndex (v : Byte)
  | sp (v : Byte)
  deriving DecidableEq, Repr

/-- What `raise E(info)` carries (00_scope.md R8, 60_exceptions.md R151). -/
structure Raised where
  cause : FaultCause
  info : FaultInfo
  deriving DecidableEq, Repr

/-- The fault record (10_state.md R30), with the info of R151 beside it (log entry 4). `faultIr` is none exactly when the fetch of
the instruction byte itself failed. -/
structure FaultRecord where
  cause : FaultCause
  faultPc : Pc
  faultIr : Option Byte
  info : FaultInfo
  deriving DecidableEq, Repr

/-- Why a step has no next state. A fault of the spec is NOT here: it is a next state with status Faulted (60_exceptions.md R155;
log entry 1). -/
inductive Fault where
  /-- Raised by `step` in a state whose status is Halted: the engine has no step (40_fetch_decode_execute.md R80). Safe. -/
  | halted
  /-- Raised by `step` in a state whose status is Faulted: the engine has no step (40_fetch_decode_execute.md R80). Safe. -/
  | faulted
  deriving DecidableEq, Repr

/-- Why an instruction has no meaning in the model. -/
inductive Refusal where
  /-- Raised by `exec` for an instruction that has no meaning yet; no arm uses it. Safe. -/
  | notModelled (mnemonic : String)
  deriving DecidableEq, Repr

/-- Memory as the cells that differ from 0, which is what an unlisted address reads as (10_state.md R34: memory is zero-filled at
reset). Its canonical form is `Memory.wf` in Ops.lean. -/
abbrev Memory := List Host.Cell

/-- All the state of the core (10_state.md, first paragraph and R20 to R35). -/
structure State where
  /-- `x[0]` to `x[7]`; `x[7]` is SP (R20, R22). -/
  regs : Vector Byte 8
  /-- The address of the next instruction to fetch (R24). -/
  pc : Pc
  /-- FL: LT is bit 5, GT bit 6, EQ bit 7 (R25, R26). -/
  fl : Byte
  /-- The 256 bytes of memory (R32). -/
  mem : Memory
  /-- The latch IR (R28). -/
  ir : Byte
  /-- The latch A (R28). -/
  opA : Byte
  /-- The latch B (R28). -/
  opB : Byte
  /-- The run status (R29). -/
  status : RunStatus
  /-- The fault record, present while Faulted (R30). -/
  faultRecord : Option FaultRecord
  /-- The output stream, oldest first (R31). -/
  out : List Byte
  deriving DecidableEq, Repr

/-- The state after reset (10_state.md R34, 70_reset_and_hazards.md R180). The latches IR, A and B are unspecified there: 0 is a
DESIGN CHOICE, log entry 2. -/
def State.reset : State where
  regs := #v[0, 0, 0, 0, 0, 0, 0, Config.spInit]
  pc := 0
  fl := 0
  mem := []
  ir := 0
  opA := 0
  opB := 0
  status := .running
  faultRecord := none
  out := []

end Sys2Proof.Machine
end

