-- ==== Sys2Proof/Machine/Ops.lean ====
section
/-! DEFINITION. The shared operations: memory, registers, the pc, output, raising a fault, and the frame every body runs in. -/

namespace Sys2Proof.Machine

/-! Memory. -/

/-- The byte at an address; an unlisted address reads as 0 (10_state.md R34, 20_memory.md R50). -/
def Memory.read (m : Memory) (addr : Nat) : Byte :=
  match m with
  | [] => 0
  | (a, v) :: rest => if a = addr then v else Memory.read rest addr

/-- The memory without any cell at an address. -/
def Memory.erase (m : Memory) (addr : Nat) : Memory := m.filter (fun c => c.1 != addr)

/-- Puts a cell before the first cell of a higher address. -/
def Memory.insert (m : Memory) (addr : Nat) (v : Byte) : Memory :=
  match m with
  | [] => [(addr, v)]
  | (a, w) :: rest => if addr < a then (addr, v) :: (a, w) :: rest else (a, w) :: Memory.insert rest addr v

/-- Stores one byte, whatever the cell held before (20_memory.md R43); storing 0 leaves the cell unlisted. -/
def Memory.write (m : Memory) (addr : Nat) (v : Byte) : Memory :=
  if v = 0 then m.erase addr else (m.erase addr).insert addr v

/-- The canonical form: addresses strictly rising and inside memory, no cell that holds the unlisted value 0. -/
def Memory.wf (m : Memory) : Bool :=
  match m with
  | [] => true
  | (a, v) :: rest =>
    decide (a < Config.memSize) && v != 0 && rest.all (fun c => decide (a < c.1)) && Memory.wf rest

/-! The faults an operation or a body can raise (60_exceptions.md R151). -/

/-- OutOfBounds on a memory address (20_memory.md R42, R43). -/
def outOfBoundsAddress (addr : Nat) : Raised := ⟨.outOfBounds, .address addr⟩

/-- OutOfBounds on a register operand byte (40_fetch_decode_execute.md R86). -/
def outOfBoundsRegister (v : Byte) : Raised := ⟨.outOfBounds, .registerIndex v⟩

/-- DivisionByZero (41_alu.md R104). -/
def divisionByZero (b : RegIndex) : Raised := ⟨.divisionByZero, .divisorRegister b⟩

/-- StackOverflow (42_control_and_stack.md R122). -/
def stackOverflow (sp : Byte) : Raised := ⟨.stackOverflow, .sp sp⟩

/-- StackUnderflow (42_control_and_stack.md R123). -/
def stackUnderflow (sp : Byte) : Raised := ⟨.stackUnderflow, .sp sp⟩

/-- The fault an unsupported byte raises (41_alu.md R105, 42_control_and_stack.md R128). -/
def unsupportedByte : DecodeError → Raised
  | .unsupportedOpcode ir => ⟨.unsupportedOpcode, .ir ir⟩
  | .unsupportedALUOperation ir => ⟨.unsupportedALUOperation, .ir ir⟩

/-- The numeric fault codes (60_exceptions.md R151). -/
def faultCode : FaultCause → Nat
  | .unsupportedOpcode => 1
  | .unsupportedALUOperation => 2
  | .divisionByZero => 3
  | .outOfBounds => 4
  | .stackOverflow => 5
  | .stackUnderflow => 6

/-! Memory accesses of the core. -/

/-- `MemRead(addr, 1)` (20_memory.md R42). -/
def memRead (addr : Nat) (s : State) : Except Raised Byte :=
  if addr < Config.memSize then .ok (s.mem.read addr) else .error (outOfBoundsAddress addr)

/-- `MemWrite(addr, 1, v)` (20_memory.md R43). -/
def memWrite (addr : Nat) (v : Byte) (s : State) : Except Raised State :=
  if addr < Config.memSize then .ok { s with mem := s.mem.write addr v } else .error (outOfBoundsAddress addr)

/-! Registers. -/

/-- Reads `x[r]` (00_scope.md R8). -/
def State.reg (s : State) (r : RegIndex) : Byte := s.regs.get r

/-- Writes `x[r]` (00_scope.md R8). No register is hard-wired (10_state.md R20). -/
def State.setReg (s : State) (r : RegIndex) (v : Byte) : State := { s with regs := s.regs.set r.val v r.isLt }

/-- SP, another name for `x[7]` (10_state.md R22). -/
def State.sp (s : State) : Byte := s.reg Config.spIndex

/-- Writes SP. -/
def State.setSp (s : State) (v : Byte) : State := s.setReg Config.spIndex v

/-- The address PUSH stores to, SP - 1 (42_control_and_stack.md R122). -/
def State.pushAddress (s : State) : Byte := s.sp - 1

/-- The address POP reads, SP (42_control_and_stack.md R123). -/
def State.popAddress (s : State) : Byte := s.sp

/-- POP faults when SP is at or above this (42_control_and_stack.md R123; log entry 6). -/
def stackLimit : Nat := Config.spLimit

/-! The program counter, the status, the output. -/

/-- The pre-advance `pc <- ia + 1 + n` with n the operand count of the instruction byte (40_fetch_decode_execute.md R84). Exact
for every pc up to 508, so for every pc of 10_state.md R24 (log entry 3). -/
def State.preAdvance (s : State) (ir : Byte) : State := { s with pc := s.pc + 1 + BitVec.ofNat 9 (operandCount ir) }

/-- `pc <- v` with v a register value 0 to 255, zero-extended (42_control_and_stack.md R124 to R126, 00_scope.md R7). -/
def State.jump (s : State) (target : Byte) : State := { s with pc := target.setWidth 9 }

/-- `status <- Halted` (42_control_and_stack.md R127). -/
def State.halt (s : State) : State := { s with status := .halted }

/-- `Emit(v)`: appends to the output stream (00_scope.md R8, 42_control_and_stack.md R121). -/
def State.emit (s : State) (v : Byte) : State := { s with out := s.out ++ [v] }

/-- Writes the whole flag register (00_scope.md R8). -/
def State.setFl (s : State) (v : Byte) : State := { s with fl := v }

/-! Taking a fault. There is no return from one: only reset leaves Faulted (60_exceptions.md R158). -/

/-- Fault entry: the status becomes Faulted and the record is written; nothing else changes (60_exceptions.md R155,
40_fetch_decode_execute.md R88). -/
def State.takeFault (s : State) (e : Raised) (faultPc : Pc) (faultIr : Option Byte) : State :=
  { s with
    status := .faulted
    faultRecord := some { cause := e.cause, faultPc := faultPc, faultIr := faultIr, info := e.info } }

/-- A fault after the fetch: pc has been advanced past the instruction, nothing else has been written
(60_exceptions.md R156). `ir` is the instruction byte, `s` the state whose pc is the instruction's address. -/
def State.faultAfterFetch (s : State) (ir : Byte) (e : Raised) : State :=
  (s.preAdvance ir).takeFault e s.pc (some ir)

/-- Runs the body of instruction i in a state whose pc is the instruction's address: pre-advance, then the body, then fault entry
if the body raised (40_fetch_decode_execute.md R84, R85, R88). What a raising body had computed is dropped: every body checks
before it writes (60_exceptions.md R156; log entry 9). -/
def runBody (i : Instr) (body : State → Except Raised State) (s : State) : Host.Outcome State Fault Refusal :=
  match body (s.preAdvance i.opcode) with
  | .ok t => .next t
  | .error e => .next (s.faultAfterFetch i.opcode e)

end Sys2Proof.Machine
end

