-- ==== Sys2Proof/Machine/Boot.lean ====
section
/-! DEFINITION. The host's side of the interface: reset, the loader's writes, and the sink's rendering
(40_fetch_decode_execute.md R89; 70_reset_and_hazards.md R180 to R183; 60_exceptions.md R163). -/

namespace Sys2Proof.Machine

/-- `reset`: every piece of state to its reset value, whatever the state was; the only way out of Halted and Faulted
(70_reset_and_hazards.md R180, R182). -/
def applyReset (_s : State) : State := State.reset

/-- `load(addr, byte)` (40_fetch_decode_execute.md R89). The host uses it only between reset and the first step (log entry 12). -/
def load (addr : Nat) (v : Byte) (s : State) : Except Raised State := memWrite addr v s

/-- Writes the bytes of an image to addr, addr+1, ... in order; the first write that fails ends the load
(70_reset_and_hazards.md R183, 60_exceptions.md R154). -/
def loadFrom (addr : Nat) (image : List Byte) (s : State) : Except Raised State :=
  match image with
  | [] => .ok s
  | v :: rest =>
    match load addr v s with
    | .error e => .error e
    | .ok t => loadFrom (addr + 1) rest t

/-- Boot: reset, then the image from address 0. An error means that the engine does not run (70_reset_and_hazards.md R183). -/
def boot (image : List Byte) : Except Raised State := loadFrom 0 image State.reset

/-- Stores bytes at addr, addr+1, ...; an address that does not exist is passed over. -/
def placeBytes (addr : Nat) (bytes : List Byte) (m : Memory) : Memory :=
  match bytes with
  | [] => m
  | v :: rest => placeBytes (addr + 1) rest (if addr < Config.memSize then m.write addr v else m)

/-- A decimal digit as a character. -/
def digitChar (d : Nat) : Char := Char.ofNat (48 + d)

/-- How the sink prints one value: decimal without sign or leading zeros, then a newline (60_exceptions.md R163). -/
def renderByte (v : Byte) : List Char :=
  let n := v.toNat
  (if n < 100 then [] else [digitChar (n / 100)]) ++ (if n < 10 then [] else [digitChar (n / 10 % 10)]) ++ [digitChar (n % 10), '\n']

/-- What the sink has printed for an output stream: the values in order of emission (60_exceptions.md R163). -/
def renderOutput (out : List Byte) : List Char := out.flatMap renderByte

end Sys2Proof.Machine
end

