-- ==== Sys2Proof/Machine/Flags.lean ====
section
/-! DEFINITION. The flag register FL: its bits and the value CMP gives it (10_state.md R25, R26; 41_alu.md R100). -/

namespace Sys2Proof.Machine

/-- FL with LT alone set: bit 5 (10_state.md R26). -/
def flLT : Byte := 0x20#8

/-- FL with GT alone set: bit 6 (10_state.md R26). -/
def flGT : Byte := 0x40#8

/-- FL with EQ alone set: bit 7 (10_state.md R26). -/
def flEQ : Byte := 0x80#8

/-- FL.LT (10_state.md R25). -/
def State.flagLT (s : State) : Bool := s.fl.getLsbD 5

/-- FL.GT (10_state.md R25). -/
def State.flagGT (s : State) : Bool := s.fl.getLsbD 6

/-- FL.EQ (10_state.md R25). -/
def State.flagEQ (s : State) : Bool := s.fl.getLsbD 7

/-- The FL of a comparison: all bits cleared, then exactly one set, by unsigned comparison (41_alu.md R100). -/
def compareFlags (x y : Byte) : Byte :=
  if x.toNat < y.toNat then flLT else if y.toNat < x.toNat then flGT else flEQ

end Sys2Proof.Machine
end

