-- ==== Sys2Proof/Machine/Operands.lean ====
section
/-! DEFINITION. The operand forms: register and imm8 (30_encoding.md R63). -/

namespace Sys2Proof.Machine

/-- `RegIndex(v)`: the register a byte names, or OutOfBounds; not reduced modulo 8 (40_fetch_decode_execute.md R86). -/
def regIndex (v : RegOperand) : Except Raised RegIndex :=
  if h : v.toNat < 8 then .ok ⟨v.toNat, h⟩ else .error (outOfBoundsRegister v)

/-- Checks one register operand, then goes on with its index. -/
def withReg (v : RegOperand) (k : RegIndex → Except Raised State) : Except Raised State :=
  match regIndex v with
  | .ok r => k r
  | .error e => .error e

/-- Checks register operand a, then register operand b, then goes on (40_fetch_decode_execute.md R86). -/
def withRegs (a b : RegOperand) (k : RegIndex → RegIndex → Except Raised State) : Except Raised State :=
  withReg a (fun ra => withReg b (fun rb => k ra rb))

/-- An imm8 operand is the value itself, neither extended nor scaled (30_encoding.md R64). -/
def immValue (imm : Imm8) : Byte := imm

end Sys2Proof.Machine
end

