-- ==== Sys2Proof/Machine/Alu.lean ====
section
/-! DEFINITION. The five ALU instructions (41_alu.md). -/

namespace Sys2Proof.Machine

/-- The result of ADD: the exact sum modulo 256 (41_alu.md R101). -/
def addResult (x y : Byte) : Byte := BitVec.ofNat 8 (x.toNat + y.toNat)

/-- The result of MUL: the low 8 bits of the exact product (41_alu.md R102). -/
def mulResult (x y : Byte) : Byte := BitVec.ofNat 8 (x.toNat * y.toNat)

/-- The result of DIV for a divisor that is not 0: the truncated quotient (41_alu.md R104). -/
def divResult (x y : Byte) : Byte := BitVec.ofNat 8 (x.toNat / y.toNat)

/-- The result of AND (41_alu.md R103). -/
def andResult (x y : Byte) : Byte := x &&& y

/-- The shape of ADD, MUL and AND: `x[a] <- f(x[a], x[b])` after both operand checks (41_alu.md R101 to R103). -/
def binaryBody (f : Byte → Byte → Byte) (a b : RegOperand) (p : State) : Except Raised State :=
  withRegs a b (fun ra rb => .ok (p.setReg ra (f (p.reg ra) (p.reg rb))))

/-- The body of CMP: FL is the only thing written (41_alu.md R100). -/
def cmpBody (a b : RegOperand) (p : State) : Except Raised State :=
  withRegs a b (fun ra rb => .ok (p.setFl (compareFlags (p.reg ra) (p.reg rb))))

/-- The body of DIV: the divisor is tested after both operand checks and before the write (41_alu.md R104). -/
def divBody (a b : RegOperand) (p : State) : Except Raised State :=
  withRegs a b (fun ra rb =>
    if p.reg rb = 0 then .error (divisionByZero rb)
    else .ok (p.setReg ra (divResult (p.reg ra) (p.reg rb))))

/-- CMP (41_alu.md R100). -/
def execCmp (a b : RegOperand) (s : State) : Host.Outcome State Fault Refusal :=
  runBody (.cmp a b) (cmpBody a b) s

/-- ADD (41_alu.md R101). -/
def execAdd (a b : RegOperand) (s : State) : Host.Outcome State Fault Refusal :=
  runBody (.add a b) (binaryBody addResult a b) s

/-- MUL (41_alu.md R102). -/
def execMul (a b : RegOperand) (s : State) : Host.Outcome State Fault Refusal :=
  runBody (.mul a b) (binaryBody mulResult a b) s

/-- AND (41_alu.md R103). -/
def execAnd (a b : RegOperand) (s : State) : Host.Outcome State Fault Refusal :=
  runBody (.and a b) (binaryBody andResult a b) s

/-- DIV (41_alu.md R104). -/
def execDiv (a b : RegOperand) (s : State) : Host.Outcome State Fault Refusal :=
  runBody (.div a b) (divBody a b) s

end Sys2Proof.Machine
end

