-- ==== Sys2Proof/Machine/Control.lean ====
section
/-! DEFINITION. JEQ, JNE, JMP and HLT (42_control_and_stack.md sections 3 and 4). -/

namespace Sys2Proof.Machine

/-- The shape of the three jumps: the operand is checked whether or not the jump is taken; a jump taken overwrites the
pre-advanced pc with the register's value (42_control_and_stack.md R124 to R126). -/
def jumpBody (taken : State → Bool) (a : RegOperand) (p : State) : Except Raised State :=
  withReg a (fun ra => .ok (if taken p then p.jump (p.reg ra) else p))

/-- JEQ: taken when FL.EQ = 1 (42_control_and_stack.md R124). -/
def execJeq (a : RegOperand) (s : State) : Host.Outcome State Fault Refusal :=
  runBody (.jeq a) (jumpBody (fun p => p.flagEQ) a) s

/-- JNE: taken when FL.EQ = 0 (42_control_and_stack.md R125). -/
def execJne (a : RegOperand) (s : State) : Host.Outcome State Fault Refusal :=
  runBody (.jne a) (jumpBody (fun p => !p.flagEQ) a) s

/-- JMP: always taken (42_control_and_stack.md R126). -/
def execJmp (a : RegOperand) (s : State) : Host.Outcome State Fault Refusal :=
  runBody (.jmp a) (jumpBody (fun _ => true) a) s

/-- HLT: the status becomes Halted (42_control_and_stack.md R127). -/
def execHlt (s : State) : Host.Outcome State Fault Refusal :=
  runBody .hlt (fun p => .ok p.halt) s

end Sys2Proof.Machine
end

