-- ==== Sys2Proof/Machine/LoadOutput.lean ====
section
/-! DEFINITION. LDI and PRN (42_control_and_stack.md section 1). -/

namespace Sys2Proof.Machine

/-- The body of LDI: `x[a] <- B` (42_control_and_stack.md R120). -/
def ldiBody (a : RegOperand) (imm : Imm8) (p : State) : Except Raised State :=
  withReg a (fun ra => .ok (p.setReg ra (immValue imm)))

/-- The body of PRN: `Emit(x[a])` (42_control_and_stack.md R121). -/
def prnBody (a : RegOperand) (p : State) : Except Raised State :=
  withReg a (fun ra => .ok (p.emit (p.reg ra)))

/-- LDI (42_control_and_stack.md R120). -/
def execLdi (a : RegOperand) (imm : Imm8) (s : State) : Host.Outcome State Fault Refusal :=
  runBody (.ldi a imm) (ldiBody a imm) s

/-- PRN (42_control_and_stack.md R121). -/
def execPrn (a : RegOperand) (s : State) : Host.Outcome State Fault Refusal :=
  runBody (.prn a) (prnBody a) s

end Sys2Proof.Machine
end

