-- ==== Sys2Proof/Machine/Stack.lean ====
section
/-! DEFINITION. PUSH and POP (42_control_and_stack.md section 2). -/

namespace Sys2Proof.Machine

/-- The body of PUSH: SP is decremented first, so `PUSH R7` stores the decremented SP (42_control_and_stack.md R122). -/
def pushBody (a : RegOperand) (p : State) : Except Raised State :=
  withReg a (fun ra =>
    if p.sp = 0 then .error (stackOverflow p.sp)
    else
      let q := p.setSp p.pushAddress
      memWrite p.pushAddress.toNat (q.reg ra) q)

/-- The body of POP: read, write the register, then increment SP as it then stands (42_control_and_stack.md R123). -/
def popBody (a : RegOperand) (p : State) : Except Raised State :=
  withReg a (fun ra =>
    if stackLimit ≤ p.sp.toNat then .error (stackUnderflow p.sp)
    else
      match memRead p.popAddress.toNat p with
      | .error e => .error e
      | .ok v =>
        let q := p.setReg ra v
        .ok (q.setSp (q.sp + 1)))

/-- PUSH (42_control_and_stack.md R122). -/
def execPush (a : RegOperand) (s : State) : Host.Outcome State Fault Refusal :=
  runBody (.push a) (pushBody a) s

/-- POP (42_control_and_stack.md R123). -/
def execPop (a : RegOperand) (s : State) : Host.Outcome State Fault Refusal :=
  runBody (.pop a) (popBody a) s

end Sys2Proof.Machine
end

