-- ==== Sys2Proof/Machine/Fetch.lean ====
section
/-! DEFINITION. Fetching the three bytes of a step, and the step of a byte that spells no instruction. -/

namespace Sys2Proof.Machine

/-- Fetch (40_fetch_decode_execute.md R81, R88): IR, A and B are read at ia, ia+1 and ia+2, in that order, without wrapping
(R82). The answer is the state with the latches written, or the Faulted state of the first read that failed: pc is still ia, and a
latch read before the failure holds its byte (log entry 18). -/
def fetch (s : State) : Except State State :=
  let ia := s.pc.toNat
  match memRead ia s with
  | .error e => .error (s.takeFault e s.pc none)
  | .ok ir =>
    let s1 := { s with ir := ir }
    match memRead (ia + 1) s1 with
    | .error e => .error (s1.takeFault e s.pc (some ir))
    | .ok a =>
      let s2 := { s1 with opA := a }
      match memRead (ia + 2) s2 with
      | .error e => .error (s2.takeFault e s.pc (some ir))
      | .ok b => .ok { s2 with opB := b }

/-- The instruction the latches hold (40_fetch_decode_execute.md R83, R85). -/
def decodeLatches (s : State) : Except DecodeError Instr := decode s.ir s.opA s.opB

/-- The step of an unsupported byte, after the fetch: pre-advance by 1 + IR[7:6], then the fault; no operand is read
(41_alu.md R105, 42_control_and_stack.md R128). -/
def execUnsupported (e : DecodeError) (s : State) : Host.Outcome State Fault Refusal :=
  .next (s.faultAfterFetch s.ir (unsupportedByte e))

end Sys2Proof.Machine
end

