-- ==== Sys2Proof/Machine/Step.lean ====
section
/-! DEFINITION. The step (40_fetch_decode_execute.md R80, R88), and placing one instruction where the step fetches. -/

namespace Sys2Proof.Machine

/-- One step (40_fetch_decode_execute.md R88): fetch, decode, then the instruction, or the fault of a byte that spells none. In
Halted and Faulted the engine has no step (R80). -/
def step (s : State) : Host.Outcome State Fault Refusal :=
  match s.status with
  | .halted => .fault .halted
  | .faulted => .fault .faulted
  | .running =>
    match fetch s with
    | .error t => .next t
    | .ok t =>
      match decodeLatches t with
      | .error e => execUnsupported e t
      | .ok i => exec i t

/-- The state with the three bytes of a table word stored at pc, pc+1 and pc+2, where the step fetches. Nothing else changes. It
stands for the loader's writes (70_reset_and_hazards.md R183; log entry 11). -/
def State.withFetchWord (s : State) (nbits w : Nat) : State :=
  { s with mem := placeBytes s.pc.toNat (tableWordBytes nbits w) s.mem }

end Sys2Proof.Machine
end

