-- ==== Sys2Proof/Safety.lean ====
section
/-! DEFINITION. What a run is, when it is over and ends well, what is observed of it, and the invariant of the machine. -/

namespace Sys2Proof.Machine

/-- The run is over: the status is Halted or Faulted (40_fetch_decode_execute.md R92). -/
def State.runOver (s : State) : Prop := s.status = .halted ∨ s.status = .faulted

/-- The run ended well: the status is Halted (40_fetch_decode_execute.md R92). -/
def State.endsWell (s : State) : Prop := s.status = .halted

/-- The observation of a run that is over (40_fetch_decode_execute.md R92): the latches are not part of it. Memory in its
canonical form is the memory's contents. -/
structure Observation where
  out : List Byte
  regs : Vector Byte 8
  pc : Pc
  fl : Byte
  mem : Memory
  status : RunStatus
  faultRecord : Option FaultRecord
  deriving DecidableEq, Repr

/-- The state read-out, which the host has once the status is not Running (40_fetch_decode_execute.md R89, R92). -/
def State.observe (s : State) : Option Observation :=
  match s.status with
  | .running => none
  | _ => some ⟨s.out, s.regs, s.pc, s.fl, s.mem, s.status, s.faultRecord⟩

/-- FL has one of its four values: none set, or exactly one of LT, GT and EQ; bits 0 to 4 are clear (10_state.md R25, R27). -/
def flLegal (fl : Byte) : Prop := fl = 0 ∨ fl = flLT ∨ fl = flGT ∨ fl = flEQ

/-- The invariant every step keeps. -/
structure State.Inv (s : State) : Prop where
  /-- Memory is in its canonical form, every listed address inside 0 to 255 (10_state.md R32). -/
  mem_wf : s.mem.wf = true
  /-- FL is legal (10_state.md R25, R27). -/
  fl_legal : flLegal s.fl
  /-- While Running or Halted, pc is 0 to 256 (10_state.md R24). -/
  pc_range : s.status ≠ .faulted → s.pc.toNat ≤ 256
  /-- A fault can leave 257 (log entry 3), nothing higher. -/
  pc_fault_range : s.pc.toNat ≤ 257
  /-- There is a fault record exactly while the status is Faulted (10_state.md R30, R34). -/
  record_iff : s.faultRecord.isSome = true ↔ s.status = .faulted

/-- The states a run from a state reaches. -/
inductive Reaches : State → State → Prop where
  | refl (s : State) : Reaches s s
  | step {s t u : State} (h : Reaches s t) (hs : Machine.step t = .next u) : Reaches s u

end Sys2Proof.Machine
end

