-- ==== Sys2Proof/Certificates/Slice0/Obligations.lean ====
section
/-! DEFINITION. The statements for the provers. Each docstring names the rule of spec/ it formalises. In a statement about exec, s
is the state whose pc is the instruction's address ia (log entry 10). The bytes of nine instructions are the spec's defaults (log entry
5); what a fault leaves and the check of register operands carry the spec's decisions D9, D13 and D15 (log entry 7). -/

namespace Sys2Proof.Claims

open Sys2Proof.Machine

/-- What a fault found after the fetch leaves, written out: pc past the `len` bytes of the instruction, the status Faulted, the record
(cause, fault_pc = ia, fault_ir = IR) with the info of 60_exceptions.md R151, and everything else as it was
(60_exceptions.md R155, R156). -/
def afterFault (s : State) (len : Nat) (ir : Byte) (cause : FaultCause) (info : FaultInfo) : State :=
  { s with
    pc := s.pc + BitVec.ofNat 9 len
    status := .faulted
    faultRecord := some { cause := cause, faultPc := s.pc, faultIr := some ir, info := info } }

/-- The latches after a fetch at pc that passes: IR, A and B hold the bytes at pc, pc + 1 and pc + 2
(40_fetch_decode_execute.md R81), everything else as it was. -/
def afterFetch (s : State) : State :=
  { s with
    ir := s.mem.read s.pc.toNat
    opA := s.mem.read (s.pc.toNat + 1)
    opB := s.mem.read (s.pc.toNat + 2) }

/-- Everything but the latches IR, A and B agrees. -/
def agreeButLatches (s t : State) : Prop :=
  { s with ir := t.ir, opA := t.opA, opB := t.opB } = t

end Sys2Proof.Claims

open Sys2Proof Sys2Proof.Machine Sys2Proof.Claims

/-! Encoding. -/

/-- Decoder and encoder agree in both directions: the bytes of any instruction, whatever follows them, decode to it; and
whatever decodes to an instruction begins with exactly that instruction's bytes, 1 + IR[7:6] of them (30_encoding.md R61, R62, R66,
R67). -/
def Obligations.DecodeAndEncodeAgree : Prop :=
  (∀ (i : Instr) (rest : List Byte), decodeBytes (encode i ++ rest) = .ok i) ∧
  (∀ (ir a b : Byte) (i : Instr), decode ir a b = .ok i → encode i = [ir, a, b].take (1 + ir.toNat / 64))

/-- Exactly the bytes outside the opcode map are rejected, by IR[5] into two kinds, 123 and 120 of them (30_encoding.md R69). -/
def Obligations.IllegalBytesAreRejectedByName : Prop :=
  (∀ ir a b : Byte, decode ir a b = .error (.unsupportedALUOperation ir) ↔
    ir.getLsbD 5 = true ∧ ir ∉ [0xA0#8, 0xA2#8, 0xA3#8, 0xA7#8, 0xA8#8]) ∧
  (∀ ir a b : Byte, decode ir a b = .error (.unsupportedOpcode ir) ↔
    ir.getLsbD 5 = false ∧ ir ∉ [0x01#8, 0x82#8, 0x47#8, 0x45#8, 0x46#8, 0x54#8, 0x55#8, 0x56#8]) ∧
  (∀ (ir a b : Byte) (e : DecodeError), decode ir a b = .error e →
    e = .unsupportedALUOperation ir ∨ e = .unsupportedOpcode ir) ∧
  ((List.range 256).countP (fun n => decide (decode (BitVec.ofNat 8 n) 0 0 =
    .error (.unsupportedALUOperation (BitVec.ofNat 8 n)))) = 123) ∧
  ((List.range 256).countP (fun n => decide (decode (BitVec.ofNat 8 n) 0 0 =
    .error (.unsupportedOpcode (BitVec.ofNat 8 n)))) = 120)

/-- The words of 95_test_vectors.md W1 and one word of each other family decode to the instruction they stand for
(30_encoding.md R66). -/
def Obligations.WrittenOutWordsDecode : Prop :=
  decode 0b10000010#8 0b00000001#8 0b00001001#8 = .ok (.ldi 1 9) ∧
  decode 0b10100000#8 0b00000000#8 0b00000001#8 = .ok (.add 0 1) ∧
  decode 0b01000111#8 0b00000011#8 0b00000001#8 = .ok (.prn 3) ∧
  decode 0b00000001#8 0b11111111#8 0b11111111#8 = .ok .hlt ∧
  decode 0b01000101#8 0b00000010#8 0b01000110#8 = .ok (.push 2) ∧
  decode 0b01010110#8 0b00000110#8 0b00000000#8 = .ok (.jne 6)

/-! The step. -/

/-- A Running engine whose pc is at most 253 and whose three bytes at pc decode to i takes the step exec i, in the state with the
latches written. The pre-advance is part of exec: each instruction's own statement says where pc goes
(40_fetch_decode_execute.md R81, R83, R85, R88). -/
def Obligations.StepRunsTheDecodedInstruction : Prop :=
  ∀ (s : State) (i : Instr), s.status = .running → s.pc.toNat ≤ 253 →
    decode (s.mem.read s.pc.toNat) (s.mem.read (s.pc.toNat + 1)) (s.mem.read (s.pc.toNat + 2)) = .ok i →
    step s = exec i (afterFetch s)

/-- Where the bytes of an instruction stand in memory from pc on, the step runs it, whatever bytes follow
(30_encoding.md R62, 20_memory.md R44, 70_reset_and_hazards.md R186). -/
def Obligations.StepRunsTheEncodedInstruction : Prop :=
  ∀ (s : State) (i : Instr), s.status = .running → s.pc.toNat ≤ 253 →
    (∀ k, (h : k < (encode i).length) → s.mem.read (s.pc.toNat + k) = (encode i)[k]) →
    step s = exec i (afterFetch s)

/-- A fetch that leaves memory faults with OutOfBounds before anything else: pc unchanged, fault_ir none only when the byte at pc
itself could not be read. The addresses do not wrap at 256 (40_fetch_decode_execute.md R81, R82, R88, decision D10). -/
def Obligations.FetchPastTheEndFaults : Prop :=
  ∀ s : State, s.status = .running →
    (256 ≤ s.pc.toNat → step s = .next { s with
      status := .faulted
      faultRecord := some { cause := .outOfBounds, faultPc := s.pc, faultIr := none, info := .address s.pc.toNat } }) ∧
    (s.pc.toNat = 255 → step s = .next { s with
      ir := s.mem.read 255
      status := .faulted
      faultRecord := some { cause := .outOfBounds, faultPc := s.pc, faultIr := some (s.mem.read 255), info := .address 256 } }) ∧
    (s.pc.toNat = 254 → step s = .next { s with
      ir := s.mem.read 254
      opA := s.mem.read 255
      status := .faulted
      faultRecord := some { cause := .outOfBounds, faultPc := s.pc, faultIr := some (s.mem.read 254), info := .address 256 } })

/-- There are 123 unsupported ALU bytes, and one always faults, with pc past 1 + IR[7:6] bytes and no operand looked at
(41_alu.md R105, with 40_fetch_decode_execute.md R84 and 60_exceptions.md R156 for pc). At pc = 253 a byte from 0xE0 to 0xFF leaves
pc = 257: that value is the model's reading (DEDUCED, log entry 3; 10_state.md R24 says at most 256). -/
def Obligations.UnsupportedALUByteFaults : Prop :=
  ((List.range 256).countP (fun n => (BitVec.ofNat 8 n).getLsbD 5 &&
    !([0xA0#8, 0xA2#8, 0xA3#8, 0xA7#8, 0xA8#8].contains (BitVec.ofNat 8 n))) = 123) ∧
  ∀ s : State, s.status = .running → s.pc.toNat ≤ 253 →
    (s.mem.read s.pc.toNat).getLsbD 5 = true →
    s.mem.read s.pc.toNat ∉ [0xA0#8, 0xA2#8, 0xA3#8, 0xA7#8, 0xA8#8] →
    step s = .next (afterFault (afterFetch s) (1 + (s.mem.read s.pc.toNat).toNat / 64) (s.mem.read s.pc.toNat)
      .unsupportedALUOperation (.ir (s.mem.read s.pc.toNat)))

/-- There are 120 unsupported handler bytes, and one always faults, with pc past 1 + IR[7:6] bytes and no operand looked at; 0x00
is one of them (42_control_and_stack.md R128, with 40_fetch_decode_execute.md R84 and 60_exceptions.md R156 for pc). At pc = 253 a
byte from 0xC0 to 0xDF leaves pc = 257: that value is the model's reading (DEDUCED, log entry 3; 10_state.md R24 says at most
256). -/
def Obligations.UnsupportedHandlerByteFaults : Prop :=
  ((List.range 256).countP (fun n => !(BitVec.ofNat 8 n).getLsbD 5 &&
    !([0x01#8, 0x82#8, 0x47#8, 0x45#8, 0x46#8, 0x54#8, 0x55#8, 0x56#8].contains (BitVec.ofNat 8 n))) = 120) ∧
  ∀ s : State, s.status = .running → s.pc.toNat ≤ 253 →
    (s.mem.read s.pc.toNat).getLsbD 5 = false →
    s.mem.read s.pc.toNat ∉ [0x01#8, 0x82#8, 0x47#8, 0x45#8, 0x46#8, 0x54#8, 0x55#8, 0x56#8] →
    step s = .next (afterFault (afterFetch s) (1 + (s.mem.read s.pc.toNat).toNat / 64) (s.mem.read s.pc.toNat)
      .unsupportedOpcode (.ir (s.mem.read s.pc.toNat)))

/-- A Running engine always takes a step, whatever its state; a Halted or Faulted one has none, which the model says by a fault
outcome named after the status (40_fetch_decode_execute.md R80; the outcome is the model's choice, log entry 1). -/
def Obligations.EngineStepsExactlyWhileRunning : Prop :=
  ∀ s : State, ((∃ t, step s = .next t) ↔ s.status = .running) ∧
    (s.status = .halted → step s = .fault .halted) ∧
    (s.status = .faulted → step s = .fault .faulted)

/-- After a step that passed its fetch, the latches hold the bytes that stood at ia, ia + 1 and ia + 2 before the step, also when
the step stored over them (10_state.md R28, R35; 70_reset_and_hazards.md R186). -/
def Obligations.LatchesHoldTheFetchedBytes : Prop :=
  ∀ s t : State, s.pc.toNat ≤ 253 → step s = .next t →
    t.ir = s.mem.read s.pc.toNat ∧ t.opA = s.mem.read (s.pc.toNat + 1) ∧ t.opB = s.mem.read (s.pc.toNat + 2)

/-! What each instruction does. Each says its bytes, its effect with everything it leaves alone, and its faults. -/

/-- LDI: `x[a] <- B`; `A` above 7 faults (42_control_and_stack.md R120). -/
def Obligations.LdiLoadsItsImmediate : Prop :=
  ∀ (a : RegOperand) (imm : Imm8) (s : State),
    encode (.ldi a imm) = [0x82#8, a, imm] ∧
    (∀ h : a.toNat < 8, exec (.ldi a imm) s = .next { s with pc := s.pc + 3, regs := s.regs.set a.toNat imm h }) ∧
    (8 ≤ a.toNat → exec (.ldi a imm) s = .next (afterFault s 3 0x82#8 .outOfBounds (.registerIndex a)))

/-- PRN: emits `x[a]`, changing nothing else but pc; `A` above 7 faults with nothing emitted (42_control_and_stack.md R121). -/
def Obligations.PrnEmitsItsRegister : Prop :=
  ∀ (a : RegOperand) (s : State),
    encode (.prn a) = [0x47#8, a] ∧
    (∀ h : a.toNat < 8, exec (.prn a) s = .next { s with pc := s.pc + 2, out := s.out ++ [s.reg ⟨a.toNat, h⟩] }) ∧
    (8 ≤ a.toNat → exec (.prn a) s = .next (afterFault s 2 0x47#8 .outOfBounds (.registerIndex a)))

/-- ADD: `x[a] <- (x[a] + x[b]) mod 256`, no flag written; operand a is checked before operand b (41_alu.md R101; the wrap is
the spec's decision D2). -/
def Obligations.AddWrapsModulo256 : Prop :=
  ∀ (a b : RegOperand) (s : State),
    encode (.add a b) = [0xA0#8, a, b] ∧
    (∀ (ha : a.toNat < 8) (hb : b.toNat < 8), ∃ v : Byte,
      v.toNat = ((s.reg ⟨a.toNat, ha⟩).toNat + (s.reg ⟨b.toNat, hb⟩).toNat) % 256 ∧
      exec (.add a b) s = .next { s with pc := s.pc + 3, regs := s.regs.set a.toNat v ha }) ∧
    (8 ≤ a.toNat → exec (.add a b) s = .next (afterFault s 3 0xA0#8 .outOfBounds (.registerIndex a))) ∧
    (a.toNat < 8 → 8 ≤ b.toNat → exec (.add a b) s = .next (afterFault s 3 0xA0#8 .outOfBounds (.registerIndex b)))

/-- MUL: `x[a] <- (x[a] * x[b]) mod 256`, no flag written (41_alu.md R102; the wrap is the spec's decision D2). -/
def Obligations.MulKeepsTheLowByte : Prop :=
  ∀ (a b : RegOperand) (s : State),
    encode (.mul a b) = [0xA2#8, a, b] ∧
    (∀ (ha : a.toNat < 8) (hb : b.toNat < 8), ∃ v : Byte,
      v.toNat = ((s.reg ⟨a.toNat, ha⟩).toNat * (s.reg ⟨b.toNat, hb⟩).toNat) % 256 ∧
      exec (.mul a b) s = .next { s with pc := s.pc + 3, regs := s.regs.set a.toNat v ha }) ∧
    (8 ≤ a.toNat → exec (.mul a b) s = .next (afterFault s 3 0xA2#8 .outOfBounds (.registerIndex a))) ∧
    (a.toNat < 8 → 8 ≤ b.toNat → exec (.mul a b) s = .next (afterFault s 3 0xA2#8 .outOfBounds (.registerIndex b)))

/-- AND: bit i of `x[a]` becomes bit i of `x[a]` and bit i of `x[b]`, no flag written (41_alu.md R103). -/
def Obligations.AndIsBitwise : Prop :=
  ∀ (a b : RegOperand) (s : State),
    encode (.and a b) = [0xA8#8, a, b] ∧
    (∀ (ha : a.toNat < 8) (hb : b.toNat < 8), ∃ v : Byte,
      (∀ i, v.getLsbD i = ((s.reg ⟨a.toNat, ha⟩).getLsbD i && (s.reg ⟨b.toNat, hb⟩).getLsbD i)) ∧
      exec (.and a b) s = .next { s with pc := s.pc + 3, regs := s.regs.set a.toNat v ha }) ∧
    (8 ≤ a.toNat → exec (.and a b) s = .next (afterFault s 3 0xA8#8 .outOfBounds (.registerIndex a))) ∧
    (a.toNat < 8 → 8 ≤ b.toNat → exec (.and a b) s = .next (afterFault s 3 0xA8#8 .outOfBounds (.registerIndex b)))

/-- DIV: `x[a] <- x[a] div x[b]`, truncated, when the divisor is not 0; a zero divisor faults and the dividend register keeps its
value; OutOfBounds is checked first (41_alu.md R104; the quotient is the spec's decision D3). -/
def Obligations.DivTruncatesAndFaultsOnZero : Prop :=
  ∀ (a b : RegOperand) (s : State),
    encode (.div a b) = [0xA3#8, a, b] ∧
    (∀ (ha : a.toNat < 8) (hb : b.toNat < 8), s.reg ⟨b.toNat, hb⟩ ≠ 0 → ∃ v : Byte,
      v.toNat = (s.reg ⟨a.toNat, ha⟩).toNat / (s.reg ⟨b.toNat, hb⟩).toNat ∧
      exec (.div a b) s = .next { s with pc := s.pc + 3, regs := s.regs.set a.toNat v ha }) ∧
    (∀ (_ : a.toNat < 8) (hb : b.toNat < 8), s.reg ⟨b.toNat, hb⟩ = 0 →
      exec (.div a b) s = .next (afterFault s 3 0xA3#8 .divisionByZero (.divisorRegister ⟨b.toNat, hb⟩))) ∧
    (8 ≤ a.toNat → exec (.div a b) s = .next (afterFault s 3 0xA3#8 .outOfBounds (.registerIndex a))) ∧
    (a.toNat < 8 → 8 ≤ b.toNat → exec (.div a b) s = .next (afterFault s 3 0xA3#8 .outOfBounds (.registerIndex b)))

/-- CMP: FL becomes 0x20, 0x40 or 0x80 by unsigned comparison, whatever it was, so exactly one of LT (bit 5), GT (bit 6) and EQ
(bit 7) is set; no register is written (41_alu.md R100; unsignedness is the spec's decision D4). -/
def Obligations.CmpSetsExactlyOneFlag : Prop :=
  ∀ (a b : RegOperand) (s : State),
    encode (.cmp a b) = [0xA7#8, a, b] ∧
    (∀ (ha : a.toNat < 8) (hb : b.toNat < 8), ∃ f : Byte,
      (f = 0x20#8 ∧ (s.reg ⟨a.toNat, ha⟩).toNat < (s.reg ⟨b.toNat, hb⟩).toNat ∨
       f = 0x40#8 ∧ (s.reg ⟨b.toNat, hb⟩).toNat < (s.reg ⟨a.toNat, ha⟩).toNat ∨
       f = 0x80#8 ∧ (s.reg ⟨a.toNat, ha⟩).toNat = (s.reg ⟨b.toNat, hb⟩).toNat) ∧
      exec (.cmp a b) s = .next { s with pc := s.pc + 3, fl := f }) ∧
    (8 ≤ a.toNat → exec (.cmp a b) s = .next (afterFault s 3 0xA7#8 .outOfBounds (.registerIndex a))) ∧
    (a.toNat < 8 → 8 ≤ b.toNat → exec (.cmp a b) s = .next (afterFault s 3 0xA7#8 .outOfBounds (.registerIndex b)))

/-- PUSH: SP is decremented, then `x[a]` is stored at SP, so `PUSH R7` stores the decremented SP; SP = 0 faults with StackOverflow
and SP and memory unchanged (42_control_and_stack.md R122, decision D7). -/
def Obligations.PushStoresBelowTheStackPointer : Prop :=
  ∀ (a : RegOperand) (s : State),
    encode (.push a) = [0x45#8, a] ∧
    (∀ h : a.toNat < 8, s.sp ≠ 0 → ∃ t : State,
      exec (.push a) s = .next t ∧
      t = { s with pc := s.pc + 2, regs := s.regs.set 7 (s.sp - 1), mem := t.mem } ∧
      ∀ addr, t.mem.read addr =
        if addr = s.sp.toNat - 1 then (if a.toNat = 7 then s.sp - 1 else s.reg ⟨a.toNat, h⟩) else s.mem.read addr) ∧
    (a.toNat < 8 → s.sp = 0 → exec (.push a) s = .next (afterFault s 2 0x45#8 .stackOverflow (.sp 0))) ∧
    (8 ≤ a.toNat → exec (.push a) s = .next (afterFault s 2 0x45#8 .outOfBounds (.registerIndex a)))

/-- POP: `x[a] <- mem[SP]`, then SP as it then stands is incremented modulo 256, so `POP R7` leaves the popped value plus 1; memory
is unchanged; SP at or above 0xF4 faults with StackUnderflow (42_control_and_stack.md R123, decision D8). -/
def Obligations.PopLoadsFromTheStackPointer : Prop :=
  ∀ (a : RegOperand) (s : State),
    encode (.pop a) = [0x46#8, a] ∧
    (∀ h : a.toNat < 8, a.toNat ≠ 7 → s.sp.toNat < 0xF4 → exec (.pop a) s = .next { s with
      pc := s.pc + 2, regs := (s.regs.set a.toNat (s.mem.read s.sp.toNat) h).set 7 (s.sp + 1) }) ∧
    (a.toNat = 7 → s.sp.toNat < 0xF4 → exec (.pop a) s = .next { s with
      pc := s.pc + 2, regs := s.regs.set 7 (s.mem.read s.sp.toNat + 1) }) ∧
    (a.toNat < 8 → 0xF4 ≤ s.sp.toNat → exec (.pop a) s = .next (afterFault s 2 0x46#8 .stackUnderflow (.sp s.sp))) ∧
    (8 ≤ a.toNat → exec (.pop a) s = .next (afterFault s 2 0x46#8 .outOfBounds (.registerIndex a)))

/-- JEQ: pc becomes `x[a]` when EQ (bit 7) is set, else stays past the instruction; `A` above 7 faults taken or not
(42_control_and_stack.md R124). -/
def Obligations.JeqJumpsWhenEqualIsSet : Prop :=
  ∀ (a : RegOperand) (s : State),
    encode (.jeq a) = [0x55#8, a] ∧
    (∀ h : a.toNat < 8, s.fl.getLsbD 7 = true →
      exec (.jeq a) s = .next { s with pc := (s.reg ⟨a.toNat, h⟩).setWidth 9 }) ∧
    (a.toNat < 8 → s.fl.getLsbD 7 = false → exec (.jeq a) s = .next { s with pc := s.pc + 2 }) ∧
    (8 ≤ a.toNat → exec (.jeq a) s = .next (afterFault s 2 0x55#8 .outOfBounds (.registerIndex a)))

/-- JNE: pc becomes `x[a]` when EQ (bit 7) is clear, so before any CMP too, else stays past the instruction; `A` above 7 faults
taken or not (42_control_and_stack.md R125). -/
def Obligations.JneJumpsWhenEqualIsClear : Prop :=
  ∀ (a : RegOperand) (s : State),
    encode (.jne a) = [0x56#8, a] ∧
    (∀ h : a.toNat < 8, s.fl.getLsbD 7 = false →
      exec (.jne a) s = .next { s with pc := (s.reg ⟨a.toNat, h⟩).setWidth 9 }) ∧
    (a.toNat < 8 → s.fl.getLsbD 7 = true → exec (.jne a) s = .next { s with pc := s.pc + 2 }) ∧
    (8 ≤ a.toNat → exec (.jne a) s = .next (afterFault s 2 0x56#8 .outOfBounds (.registerIndex a)))

/-- JMP: pc becomes `x[a]` whatever the instruction's own address; no return address is saved (42_control_and_stack.md R126). -/
def Obligations.JmpGoesToItsRegister : Prop :=
  ∀ (a : RegOperand) (s : State),
    encode (.jmp a) = [0x54#8, a] ∧
    (∀ h : a.toNat < 8, exec (.jmp a) s = .next { s with pc := (s.reg ⟨a.toNat, h⟩).setWidth 9 }) ∧
    (8 ≤ a.toNat → exec (.jmp a) s = .next (afterFault s 2 0x54#8 .outOfBounds (.registerIndex a)))

/-- HLT: the status becomes Halted, pc is past the instruction, no other state changes (42_control_and_stack.md R127). As a step, it
halts at every address up to 253 and faults in its fetch at 254 and 255. -/
def Obligations.HltHalts : Prop :=
  encode .hlt = [0x01#8] ∧
  (∀ s : State, exec .hlt s = .next { s with pc := s.pc + 1, status := .halted }) ∧
  (∀ s : State, s.status = .running → s.mem.read s.pc.toNat = 0x01#8 →
    (s.pc.toNat ≤ 253 → step s = .next { afterFetch s with pc := s.pc + 1, status := .halted }) ∧
    (s.pc.toNat = 254 ∨ s.pc.toNat = 255 →
      ∃ t r, step s = .next t ∧ t.status = .faulted ∧ t.faultRecord = some r ∧ r.cause = .outOfBounds))

/-- The sink prints each value in decimal without sign or leading zeros, then a newline (60_exceptions.md R163, decision D16); what it
has printed grows in the order of emission. The rendering is the sink's, outside the core. -/
def Obligations.SinkPrintsDecimalLines : Prop :=
  (∀ v : Byte, renderByte v = Nat.toDigits 10 v.toNat ++ ['\n']) ∧
  (∀ (out : List Byte) (v : Byte), renderOutput (out ++ [v]) = renderOutput out ++ renderByte v)

/-! Faults. -/

/-- The first register operand above 7, operand a before operand b, decides the fault before anything the body could raise
itself; the record names that operand and nothing but pc is written (40_fetch_decode_execute.md R86, 60_exceptions.md R157, decisions
D9 and D14). -/
def Obligations.FirstBadRegisterOperandFaults : Prop :=
  ∀ (i : Instr) (v : RegOperand) (s : State), i.registerOperands.find? (fun x => decide (8 ≤ x.toNat)) = some v →
    exec i s = .next (afterFault s (encode i).length i.opcode .outOfBounds (.registerIndex v))

/-- An instruction faults exactly when a register operand is above 7, DIV's divisor register is 0, PUSH finds SP = 0 or POP finds SP
at or above 0xF4 (60_exceptions.md R151). -/
def Obligations.InstructionFaultsExactlyWhen : Prop :=
  ∀ (i : Instr) (s t : State), s.status ≠ .faulted → exec i s = .next t →
    (t.status = .faulted ↔
      i.wellFormed = false ∨
      (∃ a b, ∃ h : b.toNat < 8, i = .div a b ∧ s.reg ⟨b.toNat, h⟩ = 0) ∨
      (∃ a, i = .push a ∧ s.sp = 0) ∨
      (∃ a, i = .pop a ∧ 0xF4 ≤ s.sp.toNat))

/-- Faults are precise: a step that ends Faulted has written no register, flag, memory byte or output; pc is ia after a fault in the
fetch and ia + 1 + IR[7:6] after any other; the record holds ia and IR (60_exceptions.md R155, R156, decisions D13 and D15).
At pc = 253 a byte from 0xC0 to 0xFF leaves pc = 257: that value is the model's reading (DEDUCED, log entry 3; 10_state.md R24 says
at most 256). -/
def Obligations.FaultsArePrecise : Prop :=
  ∀ s t : State, step s = .next t → t.status = .faulted →
    t.regs = s.regs ∧ t.fl = s.fl ∧ t.mem = s.mem ∧ t.out = s.out ∧
    ∃ r, t.faultRecord = some r ∧ r.faultPc = s.pc ∧
      (254 ≤ s.pc.toNat ∧ t.pc = s.pc ∧ r.cause = .outOfBounds ∧
          r.faultIr = (if s.pc.toNat ≤ 255 then some (s.mem.read s.pc.toNat) else none) ∨
       s.pc.toNat ≤ 253 ∧ t.pc.toNat = s.pc.toNat + 1 + (s.mem.read s.pc.toNat).toNat / 64 ∧
          r.faultIr = some (s.mem.read s.pc.toNat))

/-! Frames. -/

/-- LDI, ADD, MUL, AND and DIV write no register but x[a], no flag, no memory byte and no output (10_state.md R23, R25; 20_memory.md
R41). -/
def Obligations.RegisterWritersFrame : Prop :=
  ∀ (a b : RegOperand) (i : Instr) (s t : State),
    i ∈ [.ldi a b, .add a b, .mul a b, .and a b, .div a b] → exec i s = .next t →
    (∀ r : RegIndex, r.val ≠ a.toNat → t.reg r = s.reg r) ∧ t.fl = s.fl ∧
    (∀ addr, t.mem.read addr = s.mem.read addr) ∧ t.out = s.out ∧
    t.ir = s.ir ∧ t.opA = s.opA ∧ t.opB = s.opB ∧
    (t.status ≠ .faulted → t.status = s.status ∧ t.faultRecord = s.faultRecord)

/-- CMP writes no register, no memory byte and no output; where it faults it leaves FL too (10_state.md R23, 41_alu.md R100). -/
def Obligations.CmpFrame : Prop :=
  ∀ (a b : RegOperand) (s t : State), exec (.cmp a b) s = .next t →
    t.regs = s.regs ∧ (∀ addr, t.mem.read addr = s.mem.read addr) ∧ t.out = s.out ∧
    t.ir = s.ir ∧ t.opA = s.opA ∧ t.opB = s.opB ∧
    (t.status = .faulted → s.status ≠ .faulted → t.fl = s.fl) ∧
    (t.status ≠ .faulted → t.status = s.status ∧ t.faultRecord = s.faultRecord)

/-- PRN, JMP, JEQ, JNE and HLT write no register, no flag and no memory byte; only PRN emits and only HLT halts (10_state.md
R23). -/
def Obligations.OutputAndControlFrame : Prop :=
  ∀ (a : RegOperand) (i : Instr) (s t : State),
    i ∈ [.prn a, .jmp a, .jeq a, .jne a, .hlt] → exec i s = .next t →
    t.regs = s.regs ∧ t.fl = s.fl ∧ (∀ addr, t.mem.read addr = s.mem.read addr) ∧
    t.ir = s.ir ∧ t.opA = s.opA ∧ t.opB = s.opB ∧
    (i ≠ .prn a → t.out = s.out) ∧
    (t.status ≠ .faulted → t.faultRecord = s.faultRecord ∧ (i ≠ .hlt → t.status = s.status))

/-- PUSH writes no register but SP, no flag, no output, and no byte of memory but the one at SP - 1, the address the meaning itself
computes (10_state.md R23; 20_memory.md R43; 42_control_and_stack.md R122). -/
def Obligations.PushFrame : Prop :=
  ∀ (a : RegOperand) (s t : State), exec (.push a) s = .next t →
    (∀ r : RegIndex, r ≠ 7 → t.reg r = s.reg r) ∧ t.fl = s.fl ∧
    (∀ addr, addr ≠ s.pushAddress.toNat → t.mem.read addr = s.mem.read addr) ∧ t.out = s.out ∧
    t.ir = s.ir ∧ t.opA = s.opA ∧ t.opB = s.opB ∧
    (t.status ≠ .faulted → t.status = s.status ∧ t.faultRecord = s.faultRecord)

/-- POP writes no register but x[a] and SP, no flag, no byte of memory and no output (10_state.md R23, 42_control_and_stack.md
R123). -/
def Obligations.PopFrame : Prop :=
  ∀ (a : RegOperand) (s t : State), exec (.pop a) s = .next t →
    (∀ r : RegIndex, r.val ≠ a.toNat → r ≠ 7 → t.reg r = s.reg r) ∧ t.fl = s.fl ∧
    (∀ addr, t.mem.read addr = s.mem.read addr) ∧ t.out = s.out ∧
    t.ir = s.ir ∧ t.opA = s.opA ∧ t.opB = s.opB ∧
    (t.status ≠ .faulted → t.status = s.status ∧ t.faultRecord = s.faultRecord)

/-- After an instruction pc is past its bytes, but for a taken jump, whose target is its register: JMP always, JEQ with EQ set, JNE
with EQ clear (40_fetch_decode_execute.md R84, 70_reset_and_hazards.md R187). -/
def Obligations.PcAdvancesOrJumps : Prop :=
  ∀ (i : Instr) (s t : State), exec i s = .next t →
    t.pc = s.pc + BitVec.ofNat 9 (encode i).length ∨
    ∃ a, ∃ h : a.toNat < 8, t.pc.toNat = (s.reg ⟨a.toNat, h⟩).toNat ∧
      (i = .jmp a ∨ i = .jeq a ∧ s.fl.getLsbD 7 = true ∨ i = .jne a ∧ s.fl.getLsbD 7 = false)

/-! Whole-machine rules. -/

/-- A step changes FL only when the byte at pc is CMP's (10_state.md R25, 70_reset_and_hazards.md R188). -/
def Obligations.OnlyCmpChangesFlags : Prop :=
  ∀ s t : State, step s = .next t → t.fl ≠ s.fl → s.pc.toNat ≤ 253 ∧ s.mem.read s.pc.toNat = 0xA7#8

/-- A step changes a byte of memory only when the byte at pc is PUSH's, and only the byte at SP - 1 (20_memory.md R41). -/
def Obligations.OnlyPushChangesMemory : Prop :=
  ∀ (s t : State) (addr : Nat), step s = .next t → t.mem.read addr ≠ s.mem.read addr →
    s.pc.toNat ≤ 253 ∧ s.mem.read s.pc.toNat = 0x45#8 ∧ s.sp ≠ 0 ∧ addr = s.sp.toNat - 1

/-- A step changes the output stream only when the byte at pc is PRN's, and then appends the value of the register it names
(10_state.md R31, 42_control_and_stack.md R121). -/
def Obligations.OnlyPrnEmits : Prop :=
  ∀ s t : State, step s = .next t → t.out ≠ s.out →
    s.pc.toNat ≤ 253 ∧ s.mem.read s.pc.toNat = 0x47#8 ∧
    ∃ h : (s.mem.read (s.pc.toNat + 1)).toNat < 8, t.out = s.out ++ [s.reg ⟨(s.mem.read (s.pc.toNat + 1)).toNat, h⟩]

/-- A step enters Halted exactly when the byte at pc is HLT's and the fetch passes (10_state.md R29, 42_control_and_stack.md
R127). -/
def Obligations.OnlyHltHalts : Prop :=
  ∀ s t : State, step s = .next t → (t.status = .halted ↔ s.pc.toNat ≤ 253 ∧ s.mem.read s.pc.toNat = 0x01#8)

/-- Every step keeps the invariant: memory canonical and inside 0 to 255, FL with at most one flag and nothing else, pc 0 to 256
unless Faulted, a fault record exactly while Faulted (10_state.md R24, R25, R27, R30, R32; the bound 257 after a fault is the model's
reading, log entry 3). -/
def Obligations.StepKeepsTheInvariant : Prop :=
  ∀ s t : State, s.Inv → step s = .next t → t.Inv

/-- The reset state meets the invariant. -/
def Obligations.ResetMeetsTheInvariant : Prop :=
  State.reset.Inv

/-- Whatever image the loader writes, every state the run reaches meets the invariant (70_reset_and_hazards.md R183). The
invariant's bound of 257 on pc after a fault is the model's reading (DEDUCED, log entry 3). -/
def Obligations.EveryReachedStateMeetsTheInvariant : Prop :=
  ∀ (image : List Byte) (s t : State), boot image = .ok s → Reaches s t → t.Inv

/-- What the latches hold never matters to a run: two states that differ only in IR, A and B go through any number of steps
together (10_state.md R28: their reset value is unspecified and no rule reads it). So nothing rests on the 0 of log entry 2. -/
def Obligations.LatchesNeverMatterToARun : Prop :=
  ∀ (n : Nat) (s s' t : State), agreeButLatches s s' → Sys2Proof.core.run n s = .next t →
    ∃ t', Sys2Proof.core.run n s' = .next t' ∧ agreeButLatches t t'

/-- No instruction reads the output stream: with another stream in its place the step does the same and appends the same bytes
(10_state.md R31). -/
def Obligations.OutputIsNeverRead : Prop :=
  ∀ (s t : State) (o : List Byte), step s = .next t →
    ∃ p, t.out = s.out ++ p ∧ p.length ≤ 1 ∧ step { s with out := o } = .next { t with out := o ++ p }

/-- No instruction reads LT or GT: with any FL of the same EQ in its place the step does the same to everything but FL
(10_state.md R25). -/
def Obligations.OnlyEqualFlagIsRead : Prop :=
  ∀ (s t : State) (f : Byte), f.getLsbD 7 = s.fl.getLsbD 7 → step s = .next t →
    ∃ t', step { s with fl := f } = .next t' ∧ { t' with fl := t.fl } = t ∧ (t'.fl = t.fl ∨ t'.fl = f ∧ t.fl = s.fl)

/-- PUSH then POP of the same register, where neither faults, leaves every register as it was, SP and R7 included
(42_control_and_stack.md R123, its last corner case; 95_test_vectors.md W2). -/
def Obligations.PushThenPopRestoresRegisters : Prop :=
  ∀ (a : RegOperand) (s : State), a.toNat < 8 → s.sp ≠ 0 → s.sp.toNat ≤ 0xF4 →
    ∃ t u, exec (.push a) s = .next t ∧ exec (.pop a) t = .next u ∧ u.regs = s.regs ∧ u.pc = s.pc + 4

/-! Memory, reset and boot. -/

/-- The accessors: inside 0 to 255 a read after a write gives the byte written at that address and what it gave before at every
other, and nothing but memory changes; outside, both fail with OutOfBounds (20_memory.md R42, R43). -/
def Obligations.AccessorsStoreOneByteAndCheckBounds : Prop :=
  ∀ (addr : Nat) (v : Byte) (s : State),
    (addr ≤ 255 → memRead addr s = .ok (s.mem.read addr) ∧
      ∃ t, memWrite addr v s = .ok t ∧ t = { s with mem := t.mem } ∧
        ∀ b, memRead b t = if b = addr then .ok v else memRead b s) ∧
    (256 ≤ addr → memRead addr s = .error ⟨.outOfBounds, .address addr⟩ ∧
      memWrite addr v s = .error ⟨.outOfBounds, .address addr⟩)

/-- Reset, from any state: registers 0 to 6 are 0, register 7 is 0xF4, pc and FL are 0, every byte of memory is 0, the status is
Running, there is no fault record (decision D13) and the output stream is empty (10_state.md R34). -/
def Obligations.ResetGivesTheResetValues : Prop :=
  ∀ s : State, (∀ r : RegIndex, (applyReset s).reg r = if r = 7 then 0xF4#8 else 0#8) ∧
    (applyReset s).pc = 0 ∧ (applyReset s).fl = 0 ∧ (∀ addr, (applyReset s).mem.read addr = 0) ∧
    (applyReset s).status = .running ∧ (applyReset s).faultRecord = none ∧ (applyReset s).out = []

/-- Boot writes the image to addresses 0, 1, ... and leaves the rest of memory 0 and all other state at its reset value; an image of
more than 256 bytes fails its load with OutOfBounds at address 256 (70_reset_and_hazards.md R183; 60_exceptions.md R154, decision
D23). -/
def Obligations.BootLoadsTheImage : Prop :=
  ∀ image : List Byte,
    (image.length ≤ 256 → ∃ s, boot image = .ok s ∧ s = { State.reset with mem := s.mem } ∧ s.mem.wf = true ∧
      ∀ addr, s.mem.read addr = image.getD addr 0) ∧
    (256 < image.length → boot image = .error ⟨.outOfBounds, .address 256⟩)
end

