-- ==== Sys2Proof/Laws/Decode.lean ====
section
/-! SUPPORT. What the decoder answers, said once. -/

namespace Sys2Proof

/-- The decoder answers only an instruction whose first byte is IR. -/
theorem opcode_of_decode {ir a b : Byte} {i : Instr} (h : decode ir a b = .ok i) : i.opcode = ir := by
  unfold decode decodeAlu decodeHandler at h
  repeat' split at h
  all_goals first
    | (cases h; subst_vars; rfl)
    | cases h

/-- The decoder's rejection names the rejected byte. -/
theorem error_of_decode {ir a b : Byte} {e : DecodeError} (h : decode ir a b = .error e) :
    (isAlu ir = true ∧ e = .unsupportedALUOperation ir) ∨ (isAlu ir = false ∧ e = .unsupportedOpcode ir) := by
  by_cases halu : isAlu ir = true
  · rw [decode, if_pos halu, decodeAlu] at h
    repeat' split at h
    all_goals cases h
    exact .inl ⟨halu, rfl⟩
  · rw [decode, if_neg halu, decodeHandler] at h
    repeat' split at h
    all_goals cases h
    exact .inr ⟨by simpa using halu, rfl⟩

/-- IR[7:6] is at most 3. -/
theorem operandCount_le (ir : Byte) : operandCount ir ≤ 3 := by
  unfold operandCount; bv_omega

/-- IR[7:6] as a quotient (40_fetch_decode_execute.md R83: IR >> 6). -/
theorem operandCount_eq (ir : Byte) : operandCount ir = ir.toNat / 64 := by
  simp [operandCount, BitVec.toNat_ushiftRight, Nat.shiftRight_eq_div_pow]

/-! The operand count of each opcode (30_encoding.md R66, column n). -/

@[simp] theorem operandCount_opHLT : operandCount opHLT = 0 := by decide
@[simp] theorem operandCount_opLDI : operandCount opLDI = 2 := by decide
@[simp] theorem operandCount_opPRN : operandCount opPRN = 1 := by decide
@[simp] theorem operandCount_opADD : operandCount opADD = 2 := by decide
@[simp] theorem operandCount_opMUL : operandCount opMUL = 2 := by decide
@[simp] theorem operandCount_opDIV : operandCount opDIV = 2 := by decide
@[simp] theorem operandCount_opCMP : operandCount opCMP = 2 := by decide
@[simp] theorem operandCount_opAND : operandCount opAND = 2 := by decide
@[simp] theorem operandCount_opPUSH : operandCount opPUSH = 1 := by decide
@[simp] theorem operandCount_opPOP : operandCount opPOP = 1 := by decide
@[simp] theorem operandCount_opJMP : operandCount opJMP = 1 := by decide
@[simp] theorem operandCount_opJEQ : operandCount opJEQ = 1 := by decide
@[simp] theorem operandCount_opJNE : operandCount opJNE = 1 := by decide

/-- An instruction has one byte more than its operand count (30_encoding.md R61, R68). -/
@[simp] theorem operandCount_opcode (i : Instr) : operandCount i.opcode + 1 = (encode i).length := by
  cases i <;> simp [Instr.opcode, encode]

end Sys2Proof
end

