-- ==== Sys2Proof/Laws/Memory.lean ====
section
/-! SUPPORT. The laws of memory: reading after a write, and that every memory operation keeps the canonical form. -/

namespace Sys2Proof.Machine

@[simp] theorem Memory.read_nil (addr : Nat) : Memory.read [] addr = 0 := rfl

theorem Memory.read_cons (a : Nat) (v : Byte) (rest : Memory) (addr : Nat) :
    Memory.read ((a, v) :: rest) addr = if a = addr then v else Memory.read rest addr := rfl

/-- After an erase, the erased address reads as 0 and every other as before. -/
theorem Memory.read_erase (m : Memory) (addr b : Nat) :
    (m.erase addr).read b = if b = addr then 0 else m.read b := by
  induction m with
  | nil => simp [Memory.erase]
  | cons c rest ih =>
    obtain ⟨a, v⟩ := c
    simp only [Memory.erase, List.filter_cons] at ih ⊢
    by_cases h : a = addr
    · subst h
      simp only [bne_self_eq_false, Bool.false_eq_true, if_false, ih, Memory.read_cons]
      by_cases hb : b = a <;> simp [hb, eq_comm]
    · simp only [bne_iff_ne, ne_eq, h, not_false_eq_true, if_true, Memory.read_cons, ih]
      by_cases hb : a = b
      · subst hb; simp [h]
      · simp [hb]

/-- After inserting at an address no cell has, that address reads as the new byte and every other as before. -/
theorem Memory.read_insert (m : Memory) (addr b : Nat) (v : Byte) (hm : m.read addr = 0) (hn : ∀ c ∈ m, c.1 ≠ addr) :
    (m.insert addr v).read b = if b = addr then v else m.read b := by
  induction m with
  | nil => simp [Memory.insert, Memory.read_cons, eq_comm]
  | cons c rest ih =>
    obtain ⟨a, w⟩ := c
    have ha : a ≠ addr := hn (a, w) (by simp)
    have hr : Memory.read rest addr = 0 := by simpa [Memory.read_cons, ha] using hm
    have hrest : ∀ c ∈ rest, c.1 ≠ addr := fun c hc => hn c (by simp [hc])
    simp only [Memory.insert]
    split
    · simp [Memory.read_cons, eq_comm]
    · simp only [Memory.read_cons, ih hr hrest]
      by_cases hb : a = b
      · subst hb; simp [ha]
      · simp [hb]

theorem Memory.mem_erase {m : Memory} {addr : Nat} {c : Host.Cell} (h : c ∈ m.erase addr) : c ∈ m ∧ c.1 ≠ addr := by
  simpa [Memory.erase] using h

/-- A read after a write: the byte written at that address, every other address as before (20_memory.md R43, R46). -/
@[simp] theorem Memory.read_write (m : Memory) (addr b : Nat) (v : Byte) :
    (m.write addr v).read b = if b = addr then v else m.read b := by
  unfold Memory.write
  split
  · next h => rw [Memory.read_erase, h]
  · rw [Memory.read_insert _ _ _ _ (by simp [Memory.read_erase]) (fun c hc => (Memory.mem_erase hc).2),
      Memory.read_erase]
    by_cases hb : b = addr <;> simp [hb]

/-- The canonical form, cell by cell. -/
theorem Memory.wf_cons (a : Nat) (v : Byte) (rest : Memory) :
    Memory.wf ((a, v) :: rest) = true ↔ a < 256 ∧ v ≠ 0 ∧ (∀ c ∈ rest, a < c.1) ∧ rest.wf = true := by
  simp [Memory.wf, and_assoc]

/-- Erasing keeps the canonical form. -/
theorem Memory.wf_erase {m : Memory} (h : m.wf = true) (addr : Nat) : (m.erase addr).wf = true := by
  induction m with
  | nil => rfl
  | cons c rest ih =>
    obtain ⟨a, v⟩ := c
    obtain ⟨h1, h2, h3, h4⟩ := (Memory.wf_cons a v rest).1 h
    simp only [Memory.erase, List.filter_cons]
    split
    · exact (Memory.wf_cons _ _ _).2 ⟨h1, h2, fun c hc => h3 c (Memory.mem_erase hc).1, ih h4⟩
    · exact ih h4

theorem Memory.mem_insert {m : Memory} {addr : Nat} {v : Byte} {c : Host.Cell} (h : c ∈ m.insert addr v) :
    c = (addr, v) ∨ c ∈ m := by
  induction m with
  | nil => simpa [Memory.insert] using h
  | cons d rest ih =>
    obtain ⟨a, w⟩ := d
    simp only [Memory.insert] at h
    split at h
    · simpa using h
    · rcases List.mem_cons.1 h with h | h
      · exact .inr (by simp [h])
      · rcases ih h with h | h
        · exact .inl h
        · exact .inr (by simp [h])

/-- Inserting a byte that is not 0 at an address inside memory that no cell has keeps the canonical form. -/
theorem Memory.wf_insert {m : Memory} (h : m.wf = true) {addr : Nat} {v : Byte} (ha : addr < 256) (hv : v ≠ 0)
    (hn : ∀ c ∈ m, c.1 ≠ addr) : (m.insert addr v).wf = true := by
  induction m with
  | nil => exact (Memory.wf_cons _ _ _).2 ⟨ha, hv, by simp, rfl⟩
  | cons d rest ih =>
    obtain ⟨a, w⟩ := d
    obtain ⟨h1, h2, h3, h4⟩ := (Memory.wf_cons a w rest).1 h
    have hne : a ≠ addr := hn (a, w) (by simp)
    simp only [Memory.insert]
    split
    · next hlt =>
      refine (Memory.wf_cons _ _ _).2 ⟨ha, hv, fun c hc => ?_, h⟩
      rcases List.mem_cons.1 hc with hc | hc
      · simpa [hc] using hlt
      · exact Nat.lt_trans hlt (h3 c hc)
    · refine (Memory.wf_cons _ _ _).2 ⟨h1, h2, fun c hc => ?_, ih h4 (fun c hc => hn c (by simp [hc]))⟩
      rcases Memory.mem_insert hc with hc | hc
      · subst hc; simp only; omega
      · exact h3 c hc

/-- Every write inside memory keeps the canonical form. -/
theorem Memory.wf_write {m : Memory} (h : m.wf = true) {addr : Nat} (ha : addr < 256) (v : Byte) :
    (m.write addr v).wf = true := by
  unfold Memory.write
  split
  · exact Memory.wf_erase h addr
  · next hv => exact Memory.wf_insert (Memory.wf_erase h addr) ha hv (fun c hc => (Memory.mem_erase hc).2)

/-- Placing bytes keeps the canonical form. -/
theorem Memory.wf_placeBytes (bytes : List Byte) (addr : Nat) {m : Memory} (h : m.wf = true) :
    (placeBytes addr bytes m).wf = true := by
  induction bytes generalizing addr m with
  | nil => exact h
  | cons v rest ih =>
    refine ih (addr + 1) ?_
    split
    · next ha => exact Memory.wf_write h ha v
    · exact h

/-- Two canonical memories that read alike at every address are the same data. -/
theorem Memory.eq_of_read {m n : Memory} (hm : m.wf = true) (hn : n.wf = true) (h : ∀ a, m.read a = n.read a) : m = n := by
  have absent : ∀ {k : Memory} {a : Nat}, (∀ c ∈ k, a < c.1) → k.read a = 0 := by
    intro k a hk
    induction k with
    | nil => rfl
    | cons c rest ih =>
      have hc : c.1 ≠ a := by have := hk c (by simp); omega
      obtain ⟨b, v⟩ := c
      simp only at hc
      rw [Memory.read_cons, if_neg hc]
      exact ih (fun d hd => hk d (by simp [hd]))
  induction m generalizing n with
  | nil =>
    cases n with
    | nil => rfl
    | cons d rest =>
      obtain ⟨b, w⟩ := d
      have := h b
      simp only [Memory.read_nil, Memory.read_cons, if_true] at this
      exact absurd this.symm ((Memory.wf_cons b w rest).1 hn).2.1
  | cons c rest ih =>
    obtain ⟨a, v⟩ := c
    obtain ⟨-, hv, hlt, hw⟩ := (Memory.wf_cons a v rest).1 hm
    cases n with
    | nil =>
      have := h a
      simp only [Memory.read_nil, Memory.read_cons, if_true] at this
      exact absurd this hv
    | cons d rest' =>
      obtain ⟨b, w⟩ := d
      obtain ⟨-, hv', hlt', hw'⟩ := (Memory.wf_cons b w rest').1 hn
      have hab : a = b := by
        by_contra hne
        rcases Nat.lt_or_gt_of_ne hne with hl | hl
        · have e := h a
          have z : Memory.read rest' a = 0 := absent (fun c hc => Nat.lt_trans hl (hlt' c hc))
          rw [Memory.read_cons, if_pos rfl, Memory.read_cons, if_neg (fun hb => hne hb.symm), z] at e
          exact hv e
        · have e := h b
          have z : Memory.read rest b = 0 := absent (fun c hc => Nat.lt_trans hl (hlt c hc))
          rw [Memory.read_cons, if_neg hne, z, Memory.read_cons, if_pos rfl] at e
          exact hv' e.symm
      subst hab
      have e := h a
      rw [Memory.read_cons, if_pos rfl, Memory.read_cons, if_pos rfl] at e
      subst e
      have hrest : ∀ x, Memory.read rest x = Memory.read rest' x := by
        intro x
        have e := h x
        by_cases hx : a = x
        · subst hx; rw [absent hlt, absent hlt']
        · simpa only [Memory.read_cons, if_neg hx] using e
      rw [ih hw hw' hrest]

end Sys2Proof.Machine
end

