-- ==== Sys2Proof/Laws/State.lean ====
section
/-! SUPPORT. One lemma per field per update of State, true by rfl; reading a register after a write. -/

namespace Sys2Proof.Machine

@[simp] theorem State.setReg_regs (s : State) (r : RegIndex) (v : Byte) : (s.setReg r v).regs = s.regs.set r.val v r.isLt := rfl
@[simp] theorem State.setReg_pc (s : State) (r : RegIndex) (v : Byte) : (s.setReg r v).pc = s.pc := rfl
@[simp] theorem State.setReg_fl (s : State) (r : RegIndex) (v : Byte) : (s.setReg r v).fl = s.fl := rfl
@[simp] theorem State.setReg_mem (s : State) (r : RegIndex) (v : Byte) : (s.setReg r v).mem = s.mem := rfl
@[simp] theorem State.setReg_ir (s : State) (r : RegIndex) (v : Byte) : (s.setReg r v).ir = s.ir := rfl
@[simp] theorem State.setReg_opA (s : State) (r : RegIndex) (v : Byte) : (s.setReg r v).opA = s.opA := rfl
@[simp] theorem State.setReg_opB (s : State) (r : RegIndex) (v : Byte) : (s.setReg r v).opB = s.opB := rfl
@[simp] theorem State.setReg_status (s : State) (r : RegIndex) (v : Byte) : (s.setReg r v).status = s.status := rfl
@[simp] theorem State.setReg_faultRecord (s : State) (r : RegIndex) (v : Byte) : (s.setReg r v).faultRecord = s.faultRecord := rfl
@[simp] theorem State.setReg_out (s : State) (r : RegIndex) (v : Byte) : (s.setReg r v).out = s.out := rfl

@[simp] theorem State.setSp_regs (s : State) (v : Byte) : (s.setSp v).regs = s.regs.set 7 v := rfl
@[simp] theorem State.setSp_pc (s : State) (v : Byte) : (s.setSp v).pc = s.pc := rfl
@[simp] theorem State.setSp_fl (s : State) (v : Byte) : (s.setSp v).fl = s.fl := rfl
@[simp] theorem State.setSp_mem (s : State) (v : Byte) : (s.setSp v).mem = s.mem := rfl
@[simp] theorem State.setSp_ir (s : State) (v : Byte) : (s.setSp v).ir = s.ir := rfl
@[simp] theorem State.setSp_opA (s : State) (v : Byte) : (s.setSp v).opA = s.opA := rfl
@[simp] theorem State.setSp_opB (s : State) (v : Byte) : (s.setSp v).opB = s.opB := rfl
@[simp] theorem State.setSp_status (s : State) (v : Byte) : (s.setSp v).status = s.status := rfl
@[simp] theorem State.setSp_faultRecord (s : State) (v : Byte) : (s.setSp v).faultRecord = s.faultRecord := rfl
@[simp] theorem State.setSp_out (s : State) (v : Byte) : (s.setSp v).out = s.out := rfl

@[simp] theorem State.preAdvance_regs (s : State) (ir : Byte) : (s.preAdvance ir).regs = s.regs := rfl
@[simp] theorem State.preAdvance_pc (s : State) (ir : Byte) : (s.preAdvance ir).pc = s.pc + 1 + BitVec.ofNat 9 (operandCount ir) := rfl
@[simp] theorem State.preAdvance_fl (s : State) (ir : Byte) : (s.preAdvance ir).fl = s.fl := rfl
@[simp] theorem State.preAdvance_mem (s : State) (ir : Byte) : (s.preAdvance ir).mem = s.mem := rfl
@[simp] theorem State.preAdvance_ir (s : State) (ir : Byte) : (s.preAdvance ir).ir = s.ir := rfl
@[simp] theorem State.preAdvance_opA (s : State) (ir : Byte) : (s.preAdvance ir).opA = s.opA := rfl
@[simp] theorem State.preAdvance_opB (s : State) (ir : Byte) : (s.preAdvance ir).opB = s.opB := rfl
@[simp] theorem State.preAdvance_status (s : State) (ir : Byte) : (s.preAdvance ir).status = s.status := rfl
@[simp] theorem State.preAdvance_faultRecord (s : State) (ir : Byte) : (s.preAdvance ir).faultRecord = s.faultRecord := rfl
@[simp] theorem State.preAdvance_out (s : State) (ir : Byte) : (s.preAdvance ir).out = s.out := rfl

@[simp] theorem State.jump_regs (s : State) (v : Byte) : (s.jump v).regs = s.regs := rfl
@[simp] theorem State.jump_pc (s : State) (v : Byte) : (s.jump v).pc = v.setWidth 9 := rfl
@[simp] theorem State.jump_fl (s : State) (v : Byte) : (s.jump v).fl = s.fl := rfl
@[simp] theorem State.jump_mem (s : State) (v : Byte) : (s.jump v).mem = s.mem := rfl
@[simp] theorem State.jump_ir (s : State) (v : Byte) : (s.jump v).ir = s.ir := rfl
@[simp] theorem State.jump_opA (s : State) (v : Byte) : (s.jump v).opA = s.opA := rfl
@[simp] theorem State.jump_opB (s : State) (v : Byte) : (s.jump v).opB = s.opB := rfl
@[simp] theorem State.jump_status (s : State) (v : Byte) : (s.jump v).status = s.status := rfl
@[simp] theorem State.jump_faultRecord (s : State) (v : Byte) : (s.jump v).faultRecord = s.faultRecord := rfl
@[simp] theorem State.jump_out (s : State) (v : Byte) : (s.jump v).out = s.out := rfl

@[simp] theorem State.halt_regs (s : State) : s.halt.regs = s.regs := rfl
@[simp] theorem State.halt_pc (s : State) : s.halt.pc = s.pc := rfl
@[simp] theorem State.halt_fl (s : State) : s.halt.fl = s.fl := rfl
@[simp] theorem State.halt_mem (s : State) : s.halt.mem = s.mem := rfl
@[simp] theorem State.halt_ir (s : State) : s.halt.ir = s.ir := rfl
@[simp] theorem State.halt_opA (s : State) : s.halt.opA = s.opA := rfl
@[simp] theorem State.halt_opB (s : State) : s.halt.opB = s.opB := rfl
@[simp] theorem State.halt_status (s : State) : s.halt.status = .halted := rfl
@[simp] theorem State.halt_faultRecord (s : State) : s.halt.faultRecord = s.faultRecord := rfl
@[simp] theorem State.halt_out (s : State) : s.halt.out = s.out := rfl

@[simp] theorem State.emit_regs (s : State) (v : Byte) : (s.emit v).regs = s.regs := rfl
@[simp] theorem State.emit_pc (s : State) (v : Byte) : (s.emit v).pc = s.pc := rfl
@[simp] theorem State.emit_fl (s : State) (v : Byte) : (s.emit v).fl = s.fl := rfl
@[simp] theorem State.emit_mem (s : State) (v : Byte) : (s.emit v).mem = s.mem := rfl
@[simp] theorem State.emit_ir (s : State) (v : Byte) : (s.emit v).ir = s.ir := rfl
@[simp] theorem State.emit_opA (s : State) (v : Byte) : (s.emit v).opA = s.opA := rfl
@[simp] theorem State.emit_opB (s : State) (v : Byte) : (s.emit v).opB = s.opB := rfl
@[simp] theorem State.emit_status (s : State) (v : Byte) : (s.emit v).status = s.status := rfl
@[simp] theorem State.emit_faultRecord (s : State) (v : Byte) : (s.emit v).faultRecord = s.faultRecord := rfl
@[simp] theorem State.emit_out (s : State) (v : Byte) : (s.emit v).out = s.out ++ [v] := rfl

@[simp] theorem State.setFl_regs (s : State) (v : Byte) : (s.setFl v).regs = s.regs := rfl
@[simp] theorem State.setFl_pc (s : State) (v : Byte) : (s.setFl v).pc = s.pc := rfl
@[simp] theorem State.setFl_fl (s : State) (v : Byte) : (s.setFl v).fl = v := rfl
@[simp] theorem State.setFl_mem (s : State) (v : Byte) : (s.setFl v).mem = s.mem := rfl
@[simp] theorem State.setFl_ir (s : State) (v : Byte) : (s.setFl v).ir = s.ir := rfl
@[simp] theorem State.setFl_opA (s : State) (v : Byte) : (s.setFl v).opA = s.opA := rfl
@[simp] theorem State.setFl_opB (s : State) (v : Byte) : (s.setFl v).opB = s.opB := rfl
@[simp] theorem State.setFl_status (s : State) (v : Byte) : (s.setFl v).status = s.status := rfl
@[simp] theorem State.setFl_faultRecord (s : State) (v : Byte) : (s.setFl v).faultRecord = s.faultRecord := rfl
@[simp] theorem State.setFl_out (s : State) (v : Byte) : (s.setFl v).out = s.out := rfl

@[simp] theorem State.takeFault_regs (s : State) (e : Raised) (pc : Pc) (ir : Option Byte) : (s.takeFault e pc ir).regs = s.regs := rfl
@[simp] theorem State.takeFault_pc (s : State) (e : Raised) (pc : Pc) (ir : Option Byte) : (s.takeFault e pc ir).pc = s.pc := rfl
@[simp] theorem State.takeFault_fl (s : State) (e : Raised) (pc : Pc) (ir : Option Byte) : (s.takeFault e pc ir).fl = s.fl := rfl
@[simp] theorem State.takeFault_mem (s : State) (e : Raised) (pc : Pc) (ir : Option Byte) : (s.takeFault e pc ir).mem = s.mem := rfl
@[simp] theorem State.takeFault_ir (s : State) (e : Raised) (pc : Pc) (ir : Option Byte) : (s.takeFault e pc ir).ir = s.ir := rfl
@[simp] theorem State.takeFault_opA (s : State) (e : Raised) (pc : Pc) (ir : Option Byte) : (s.takeFault e pc ir).opA = s.opA := rfl
@[simp] theorem State.takeFault_opB (s : State) (e : Raised) (pc : Pc) (ir : Option Byte) : (s.takeFault e pc ir).opB = s.opB := rfl
@[simp] theorem State.takeFault_status (s : State) (e : Raised) (pc : Pc) (ir : Option Byte) : (s.takeFault e pc ir).status = .faulted := rfl
@[simp] theorem State.takeFault_faultRecord (s : State) (e : Raised) (pc : Pc) (ir : Option Byte) : (s.takeFault e pc ir).faultRecord = some ⟨e.cause, pc, ir, e.info⟩ := rfl
@[simp] theorem State.takeFault_out (s : State) (e : Raised) (pc : Pc) (ir : Option Byte) : (s.takeFault e pc ir).out = s.out := rfl

@[simp] theorem State.faultAfterFetch_regs (s : State) (ir : Byte) (e : Raised) : (s.faultAfterFetch ir e).regs = s.regs := rfl
@[simp] theorem State.faultAfterFetch_pc (s : State) (ir : Byte) (e : Raised) : (s.faultAfterFetch ir e).pc = s.pc + 1 + BitVec.ofNat 9 (operandCount ir) := rfl
@[simp] theorem State.faultAfterFetch_fl (s : State) (ir : Byte) (e : Raised) : (s.faultAfterFetch ir e).fl = s.fl := rfl
@[simp] theorem State.faultAfterFetch_mem (s : State) (ir : Byte) (e : Raised) : (s.faultAfterFetch ir e).mem = s.mem := rfl
@[simp] theorem State.faultAfterFetch_ir (s : State) (ir : Byte) (e : Raised) : (s.faultAfterFetch ir e).ir = s.ir := rfl
@[simp] theorem State.faultAfterFetch_opA (s : State) (ir : Byte) (e : Raised) : (s.faultAfterFetch ir e).opA = s.opA := rfl
@[simp] theorem State.faultAfterFetch_opB (s : State) (ir : Byte) (e : Raised) : (s.faultAfterFetch ir e).opB = s.opB := rfl
@[simp] theorem State.faultAfterFetch_status (s : State) (ir : Byte) (e : Raised) : (s.faultAfterFetch ir e).status = .faulted := rfl
@[simp] theorem State.faultAfterFetch_faultRecord (s : State) (ir : Byte) (e : Raised) : (s.faultAfterFetch ir e).faultRecord = some ⟨e.cause, s.pc, some ir, e.info⟩ := rfl
@[simp] theorem State.faultAfterFetch_out (s : State) (ir : Byte) (e : Raised) : (s.faultAfterFetch ir e).out = s.out := rfl

/-- Reading a register after writing one: the new value there, every other register as before. -/
@[simp] theorem State.setReg_reg (s : State) (r q : RegIndex) (v : Byte) :
    (s.setReg r v).reg q = if q = r then v else s.reg q := by
  simp only [State.reg, State.setReg, Vector.get_eq_getElem, Vector.getElem_set, Fin.ext_iff, eq_comm]

/-- Reading a register after writing SP. -/
@[simp] theorem State.setSp_reg (s : State) (q : RegIndex) (v : Byte) :
    (s.setSp v).reg q = if q = 7 then v else s.reg q := s.setReg_reg 7 q v

@[simp] theorem State.setSp_sp (s : State) (v : Byte) : (s.setSp v).sp = v := by
  simp [State.sp]

theorem State.setReg_sp (s : State) (r : RegIndex) (v : Byte) : (s.setReg r v).sp = if r = 7 then v else s.sp := by
  simp [State.sp, eq_comm]

@[simp] theorem State.preAdvance_reg (s : State) (ir : Byte) (q : RegIndex) : (s.preAdvance ir).reg q = s.reg q := rfl
@[simp] theorem State.preAdvance_sp (s : State) (ir : Byte) : (s.preAdvance ir).sp = s.sp := rfl
@[simp] theorem State.jump_reg (s : State) (v : Byte) (q : RegIndex) : (s.jump v).reg q = s.reg q := rfl
@[simp] theorem State.jump_sp (s : State) (v : Byte) : (s.jump v).sp = s.sp := rfl
@[simp] theorem State.halt_reg (s : State) (q : RegIndex) : s.halt.reg q = s.reg q := rfl
@[simp] theorem State.halt_sp (s : State) : s.halt.sp = s.sp := rfl
@[simp] theorem State.emit_reg (s : State) (v : Byte) (q : RegIndex) : (s.emit v).reg q = s.reg q := rfl
@[simp] theorem State.emit_sp (s : State) (v : Byte) : (s.emit v).sp = s.sp := rfl
@[simp] theorem State.setFl_reg (s : State) (v : Byte) (q : RegIndex) : (s.setFl v).reg q = s.reg q := rfl
@[simp] theorem State.setFl_sp (s : State) (v : Byte) : (s.setFl v).sp = s.sp := rfl
@[simp] theorem State.takeFault_reg (s : State) (e : Raised) (pc : Pc) (ir : Option Byte) (q : RegIndex) : (s.takeFault e pc ir).reg q = s.reg q := rfl
@[simp] theorem State.takeFault_sp (s : State) (e : Raised) (pc : Pc) (ir : Option Byte) : (s.takeFault e pc ir).sp = s.sp := rfl
@[simp] theorem State.faultAfterFetch_reg (s : State) (ir : Byte) (e : Raised) (q : RegIndex) : (s.faultAfterFetch ir e).reg q = s.reg q := rfl
@[simp] theorem State.faultAfterFetch_sp (s : State) (ir : Byte) (e : Raised) : (s.faultAfterFetch ir e).sp = s.sp := rfl
@[simp] theorem State.setReg_flagEQ (s : State) (r : RegIndex) (v : Byte) : (s.setReg r v).flagEQ = s.flagEQ := rfl
@[simp] theorem State.setSp_flagEQ (s : State) (v : Byte) : (s.setSp v).flagEQ = s.flagEQ := rfl
@[simp] theorem State.preAdvance_flagEQ (s : State) (ir : Byte) : (s.preAdvance ir).flagEQ = s.flagEQ := rfl
@[simp] theorem State.jump_flagEQ (s : State) (v : Byte) : (s.jump v).flagEQ = s.flagEQ := rfl
@[simp] theorem State.halt_flagEQ (s : State) : s.halt.flagEQ = s.flagEQ := rfl
@[simp] theorem State.emit_flagEQ (s : State) (v : Byte) : (s.emit v).flagEQ = s.flagEQ := rfl
@[simp] theorem State.takeFault_flagEQ (s : State) (e : Raised) (pc : Pc) (ir : Option Byte) : (s.takeFault e pc ir).flagEQ = s.flagEQ := rfl
@[simp] theorem State.faultAfterFetch_flagEQ (s : State) (ir : Byte) (e : Raised) : (s.faultAfterFetch ir e).flagEQ = s.flagEQ := rfl

end Sys2Proof.Machine
end

