-- ==== Sys2Proof/Laws/Ops.lean ====
section
/-! SUPPORT. One lemma per shared operation, saying once everything it can do; one per body. -/

namespace Sys2Proof.Machine

theorem memRead_of_lt {addr : Nat} (h : addr < 256) (s : State) : memRead addr s = .ok (s.mem.read addr) := if_pos h

theorem memRead_of_ge {addr : Nat} (h : 256 ≤ addr) (s : State) : memRead addr s = .error (outOfBoundsAddress addr) :=
  if_neg (Nat.not_lt.2 h)

theorem memWrite_of_lt {addr : Nat} (h : addr < 256) (v : Byte) (s : State) :
    memWrite addr v s = .ok { s with mem := s.mem.write addr v } := if_pos h

theorem memWrite_of_ge {addr : Nat} (h : 256 ≤ addr) (v : Byte) (s : State) :
    memWrite addr v s = .error (outOfBoundsAddress addr) := if_neg (Nat.not_lt.2 h)

theorem regIndex_of_lt {v : RegOperand} (h : v.toNat < 8) : regIndex v = .ok ⟨v.toNat, h⟩ := dif_pos h

theorem regIndex_of_ge {v : RegOperand} (h : 8 ≤ v.toNat) : regIndex v = .error (outOfBoundsRegister v) :=
  dif_neg (Nat.not_lt.2 h)

theorem withReg_of_lt {v : RegOperand} (h : v.toNat < 8) (k : RegIndex → Except Raised State) :
    withReg v k = k ⟨v.toNat, h⟩ := by rw [withReg, regIndex_of_lt h]

theorem withReg_of_ge {v : RegOperand} (h : 8 ≤ v.toNat) (k : RegIndex → Except Raised State) :
    withReg v k = .error (outOfBoundsRegister v) := by rw [withReg, regIndex_of_ge h]

theorem withRegs_of_lt {a b : RegOperand} (ha : a.toNat < 8) (hb : b.toNat < 8)
    (k : RegIndex → RegIndex → Except Raised State) : withRegs a b k = k ⟨a.toNat, ha⟩ ⟨b.toNat, hb⟩ := by
  rw [withRegs, withReg_of_lt ha, withReg_of_lt hb]

theorem withRegs_of_ge_left {a b : RegOperand} (ha : 8 ≤ a.toNat) (k : RegIndex → RegIndex → Except Raised State) :
    withRegs a b k = .error (outOfBoundsRegister a) := by rw [withRegs, withReg_of_ge ha]

theorem withRegs_of_ge_right {a b : RegOperand} (ha : a.toNat < 8) (hb : 8 ≤ b.toNat)
    (k : RegIndex → RegIndex → Except Raised State) : withRegs a b k = .error (outOfBoundsRegister b) := by
  rw [withRegs, withReg_of_lt ha, withReg_of_ge hb]

/-- A register check that goes on has an operand 0 to 7; the answer is the continuation's. -/
theorem withReg_ok {v : RegOperand} {k : RegIndex → Except Raised State} {t : State} (h : withReg v k = .ok t) :
    ∃ hv : v.toNat < 8, k ⟨v.toNat, hv⟩ = .ok t := by
  by_cases hv : v.toNat < 8
  · exact ⟨hv, by rwa [withReg_of_lt hv] at h⟩
  · rw [withReg_of_ge (Nat.not_lt.1 hv)] at h; cases h

theorem withRegs_ok {a b : RegOperand} {k : RegIndex → RegIndex → Except Raised State} {t : State}
    (h : withRegs a b k = .ok t) :
    ∃ (ha : a.toNat < 8) (hb : b.toNat < 8), k ⟨a.toNat, ha⟩ ⟨b.toNat, hb⟩ = .ok t := by
  obtain ⟨ha, h⟩ := withReg_ok h
  obtain ⟨hb, h⟩ := withReg_ok h
  exact ⟨ha, hb, h⟩

theorem runBody_of_ok {i : Instr} {body : State → Except Raised State} {s t : State}
    (h : body (s.preAdvance i.opcode) = .ok t) : runBody i body s = .next t := by rw [runBody, h]

theorem runBody_of_error {i : Instr} {body : State → Except Raised State} {s : State} {e : Raised}
    (h : body (s.preAdvance i.opcode) = .error e) : runBody i body s = .next (s.faultAfterFetch i.opcode e) := by
  rw [runBody, h]

/-! The pre-advance by format: F0, F1 and F2 (30_encoding.md R62). -/

theorem preAdvance_of_zero {ir : Byte} (h : operandCount ir = 0) (s : State) :
    s.preAdvance ir = { s with pc := s.pc + 1 } := by
  rw [State.preAdvance, h]; simp

theorem preAdvance_of_one {ir : Byte} (h : operandCount ir = 1) (s : State) :
    s.preAdvance ir = { s with pc := s.pc + 2 } := by
  rw [State.preAdvance, h, BitVec.add_assoc]; rfl

theorem preAdvance_of_two {ir : Byte} (h : operandCount ir = 2) (s : State) :
    s.preAdvance ir = { s with pc := s.pc + 3 } := by
  rw [State.preAdvance, h, BitVec.add_assoc]; rfl

/-- For a pc at which a fetch passes, the pre-advance is the exact sum (40_fetch_decode_execute.md R84). -/
theorem preAdvance_pc_toNat {s : State} (h : s.pc.toNat ≤ 253) (ir : Byte) :
    (s.preAdvance ir).pc.toNat = s.pc.toNat + 1 + operandCount ir := by
  have := operandCount_le ir
  have h1 : (1 : Pc).toNat = 1 := rfl
  simp only [State.preAdvance_pc, BitVec.toNat_add, BitVec.toNat_ofNat, h1]
  omega

/-- What running a body can do: the body's state, or fault entry with nothing written but pc. -/
theorem runBody_cases {i : Instr} {body : State → Except Raised State} {s t : State} (h : runBody i body s = .next t) :
    body (s.preAdvance i.opcode) = .ok t ∨
      ∃ e, body (s.preAdvance i.opcode) = .error e ∧ t = s.faultAfterFetch i.opcode e := by
  unfold runBody at h
  split at h
  · next hb => cases h; exact .inl hb
  · next e hb => cases h; exact .inr ⟨e, hb, rfl⟩

/-- A body always ends in a next state. -/
theorem runBody_next (i : Instr) (body : State → Except Raised State) (s : State) : ∃ t, runBody i body s = .next t := by
  unfold runBody
  split
  · exact ⟨_, rfl⟩
  · exact ⟨_, rfl⟩

theorem binaryBody_ok {f : Byte → Byte → Byte} {a b : RegOperand} {p t : State} (h : binaryBody f a b p = .ok t) :
    ∃ (ha : a.toNat < 8) (hb : b.toNat < 8), t = p.setReg ⟨a.toNat, ha⟩ (f (p.reg ⟨a.toNat, ha⟩) (p.reg ⟨b.toNat, hb⟩)) := by
  obtain ⟨ha, hb, h⟩ := withRegs_ok h
  cases h
  exact ⟨ha, hb, rfl⟩

theorem cmpBody_ok {a b : RegOperand} {p t : State} (h : cmpBody a b p = .ok t) :
    ∃ (ha : a.toNat < 8) (hb : b.toNat < 8), t = p.setFl (compareFlags (p.reg ⟨a.toNat, ha⟩) (p.reg ⟨b.toNat, hb⟩)) := by
  obtain ⟨ha, hb, h⟩ := withRegs_ok h
  cases h
  exact ⟨ha, hb, rfl⟩

theorem divBody_ok {a b : RegOperand} {p t : State} (h : divBody a b p = .ok t) :
    ∃ (ha : a.toNat < 8) (hb : b.toNat < 8), p.reg ⟨b.toNat, hb⟩ ≠ 0 ∧
      t = p.setReg ⟨a.toNat, ha⟩ (divResult (p.reg ⟨a.toNat, ha⟩) (p.reg ⟨b.toNat, hb⟩)) := by
  obtain ⟨ha, hb, h⟩ := withRegs_ok h
  split at h
  · cases h
  · next hz => cases h; exact ⟨ha, hb, hz, rfl⟩

theorem ldiBody_ok {a : RegOperand} {imm : Imm8} {p t : State} (h : ldiBody a imm p = .ok t) :
    ∃ ha : a.toNat < 8, t = p.setReg ⟨a.toNat, ha⟩ imm := by
  obtain ⟨ha, h⟩ := withReg_ok h
  cases h
  exact ⟨ha, rfl⟩

theorem prnBody_ok {a : RegOperand} {p t : State} (h : prnBody a p = .ok t) :
    ∃ ha : a.toNat < 8, t = p.emit (p.reg ⟨a.toNat, ha⟩) := by
  obtain ⟨ha, h⟩ := withReg_ok h
  cases h
  exact ⟨ha, rfl⟩

theorem jumpBody_ok {taken : State → Bool} {a : RegOperand} {p t : State} (h : jumpBody taken a p = .ok t) :
    ∃ ha : a.toNat < 8, t = if taken p then p.jump (p.reg ⟨a.toNat, ha⟩) else p := by
  obtain ⟨ha, h⟩ := withReg_ok h
  cases h
  exact ⟨ha, rfl⟩

theorem pushBody_of_lt {a : RegOperand} (ha : a.toNat < 8) {p : State} (hsp : p.sp ≠ 0) :
    pushBody a p = .ok { p.setSp p.pushAddress with
      mem := p.mem.write p.pushAddress.toNat ((p.setSp p.pushAddress).reg ⟨a.toNat, ha⟩) } := by
  rw [pushBody, withReg_of_lt ha, if_neg hsp, memWrite_of_lt p.pushAddress.isLt]
  rfl

theorem pushBody_ok {a : RegOperand} {p t : State} (h : pushBody a p = .ok t) :
    ∃ ha : a.toNat < 8, p.sp ≠ 0 ∧ t = { p.setSp p.pushAddress with
      mem := p.mem.write p.pushAddress.toNat ((p.setSp p.pushAddress).reg ⟨a.toNat, ha⟩) } := by
  obtain ⟨ha, h'⟩ := withReg_ok h
  have hsp : p.sp ≠ 0 := by
    intro hz
    rw [if_pos hz] at h'
    cases h'
  rw [pushBody_of_lt ha hsp] at h
  cases h
  exact ⟨ha, hsp, rfl⟩

theorem popBody_of_lt {a : RegOperand} (ha : a.toNat < 8) {p : State} (hsp : p.sp.toNat < 0xF4) :
    popBody a p = .ok ((p.setReg ⟨a.toNat, ha⟩ (p.mem.read p.sp.toNat)).setSp
      ((p.setReg ⟨a.toNat, ha⟩ (p.mem.read p.sp.toNat)).sp + 1)) := by
  have hlt : ¬ stackLimit ≤ p.sp.toNat := Nat.not_le.2 hsp
  rw [popBody, withReg_of_lt ha, if_neg hlt, memRead_of_lt p.popAddress.isLt]
  rfl

theorem popBody_ok {a : RegOperand} {p t : State} (h : popBody a p = .ok t) :
    ∃ ha : a.toNat < 8, p.sp.toNat < 0xF4 ∧
      t = (p.setReg ⟨a.toNat, ha⟩ (p.mem.read p.sp.toNat)).setSp
        ((p.setReg ⟨a.toNat, ha⟩ (p.mem.read p.sp.toNat)).sp + 1) := by
  obtain ⟨ha, h'⟩ := withReg_ok h
  have hsp : p.sp.toNat < 0xF4 := by
    by_contra hge
    rw [if_pos (Nat.not_lt.1 hge : stackLimit ≤ p.sp.toNat)] at h'
    cases h'
  rw [popBody_of_lt ha hsp] at h
  cases h
  exact ⟨ha, hsp, rfl⟩

/-- A fetch at an address up to 253 passes and writes the three latches. -/
theorem fetch_of_le {s : State} (h : s.pc.toNat ≤ 253) :
    fetch s = .ok { s with
      ir := s.mem.read s.pc.toNat, opA := s.mem.read (s.pc.toNat + 1), opB := s.mem.read (s.pc.toNat + 2) } := by
  simp only [fetch]
  rw [memRead_of_lt (by omega)]
  simp only
  rw [memRead_of_lt (by omega)]
  simp only
  rw [memRead_of_lt (by omega)]

/-- A fetch at 254 fails at ia + 2 = 256. -/
theorem fetch_of_254 {s : State} (h : s.pc.toNat = 254) :
    fetch s = .error (State.takeFault { s with ir := s.mem.read 254, opA := s.mem.read 255 }
      (outOfBoundsAddress 256) s.pc (some (s.mem.read 254))) := by
  simp only [fetch, h]
  rw [memRead_of_lt (by omega)]
  simp only
  rw [memRead_of_lt (by omega)]
  simp only
  rw [memRead_of_ge (by omega)]

/-- A fetch at 255 fails at ia + 1 = 256. -/
theorem fetch_of_255 {s : State} (h : s.pc.toNat = 255) :
    fetch s = .error (State.takeFault { s with ir := s.mem.read 255 }
      (outOfBoundsAddress 256) s.pc (some (s.mem.read 255))) := by
  simp only [fetch, h]
  rw [memRead_of_lt (by omega)]
  simp only
  rw [memRead_of_ge (by omega)]

/-- A fetch above 255 fails at ia. -/
theorem fetch_of_ge {s : State} (h : 256 ≤ s.pc.toNat) :
    fetch s = .error (s.takeFault (outOfBoundsAddress s.pc.toNat) s.pc none) := by
  simp only [fetch]
  rw [memRead_of_ge h]

/-- The state after a fetch that passed: the latches written, nothing else. -/
def State.latched (s : State) : State :=
  { s with ir := s.mem.read s.pc.toNat, opA := s.mem.read (s.pc.toNat + 1), opB := s.mem.read (s.pc.toNat + 2) }

@[simp] theorem State.latched_regs (s : State) : s.latched.regs = s.regs := rfl
@[simp] theorem State.latched_reg (s : State) (r : RegIndex) : s.latched.reg r = s.reg r := rfl
@[simp] theorem State.latched_sp (s : State) : s.latched.sp = s.sp := rfl
@[simp] theorem State.latched_pc (s : State) : s.latched.pc = s.pc := rfl
@[simp] theorem State.latched_fl (s : State) : s.latched.fl = s.fl := rfl
@[simp] theorem State.latched_mem (s : State) : s.latched.mem = s.mem := rfl
@[simp] theorem State.latched_status (s : State) : s.latched.status = s.status := rfl
@[simp] theorem State.latched_faultRecord (s : State) : s.latched.faultRecord = s.faultRecord := rfl
@[simp] theorem State.latched_out (s : State) : s.latched.out = s.out := rfl

/-- A fetch that passed. -/
theorem fetch_ok {s t : State} (h : fetch s = .ok t) : s.pc.toNat ≤ 253 ∧ t = s.latched := by
  by_cases hpc : s.pc.toNat ≤ 253
  · rw [fetch_of_le hpc] at h; cases h; exact ⟨hpc, rfl⟩
  · rcases (by omega : s.pc.toNat = 254 ∨ s.pc.toNat = 255 ∨ 256 ≤ s.pc.toNat) with h' | h' | h'
    · rw [fetch_of_254 h'] at h; cases h
    · rw [fetch_of_255 h'] at h; cases h
    · rw [fetch_of_ge h'] at h; cases h

/-- A fetch that failed: only latches, the status and the record change. -/
theorem fetch_error {s t : State} (h : fetch s = .error t) :
    254 ≤ s.pc.toNat ∧ ∃ x y addr, t = State.takeFault { s with ir := x, opA := y } (outOfBoundsAddress addr) s.pc
      (if s.pc.toNat ≤ 255 then some (s.mem.read s.pc.toNat) else none) := by
  by_cases hpc : s.pc.toNat ≤ 253
  · rw [fetch_of_le hpc] at h; cases h
  · refine ⟨by omega, ?_⟩
    rcases (by omega : s.pc.toNat = 254 ∨ s.pc.toNat = 255 ∨ 256 ≤ s.pc.toNat) with h' | h' | h'
    · rw [fetch_of_254 h'] at h; cases h
      exact ⟨s.mem.read 254, s.mem.read 255, 256, by simp [h']⟩
    · rw [fetch_of_255 h'] at h; cases h
      exact ⟨s.mem.read 255, s.opA, 256, by simp [h']⟩
    · rw [fetch_of_ge h'] at h; cases h
      exact ⟨s.ir, s.opA, s.pc.toNat, by rw [if_neg (by omega)]⟩

end Sys2Proof.Machine
end

