-- ==== Sys2Proof/Laws/PerInstr.lean ====
section
/-! SUPPORT. Facts of every instruction as syntax, one lemma per constructor. -/

namespace Sys2Proof.Laws.EncodingShape

/-- The bytes of an instruction begin with its opcode, and IR[7:6] counts the rest (30_encoding.md R61, R68). -/
def Statement (i : Instr) : Prop :=
  (encode i).head? = some i.opcode ∧ (encode i).length = 1 + operandCount i.opcode

/-- The second half, for all instructions. -/
theorem length_eq (i : Instr) : (encode i).length = 1 + operandCount i.opcode := by
  rw [← operandCount_opcode, Nat.add_comm]

theorem hlt : Statement .hlt := ⟨rfl, length_eq _⟩
theorem ldi (a : RegOperand) (imm : Imm8) : Statement (.ldi a imm) := ⟨rfl, length_eq _⟩
theorem prn (a : RegOperand) : Statement (.prn a) := ⟨rfl, length_eq _⟩
theorem add (a b : RegOperand) : Statement (.add a b) := ⟨rfl, length_eq _⟩
theorem mul (a b : RegOperand) : Statement (.mul a b) := ⟨rfl, length_eq _⟩
theorem div (a b : RegOperand) : Statement (.div a b) := ⟨rfl, length_eq _⟩
theorem cmp (a b : RegOperand) : Statement (.cmp a b) := ⟨rfl, length_eq _⟩
theorem and (a b : RegOperand) : Statement (.and a b) := ⟨rfl, length_eq _⟩
theorem push (a : RegOperand) : Statement (.push a) := ⟨rfl, length_eq _⟩
theorem pop (a : RegOperand) : Statement (.pop a) := ⟨rfl, length_eq _⟩
theorem jmp (a : RegOperand) : Statement (.jmp a) := ⟨rfl, length_eq _⟩
theorem jeq (a : RegOperand) : Statement (.jeq a) := ⟨rfl, length_eq _⟩
theorem jne (a : RegOperand) : Statement (.jne a) := ⟨rfl, length_eq _⟩

end Sys2Proof.Laws.EncodingShape
end

