-- ==== Sys2Proof/Laws/Step.lean ====
section
/-! SUPPORT. What exec and step can do, said once. -/

namespace Sys2Proof.Machine

/-- The body each meaning runs. -/
def bodyOf (i : Instr) : State → Except Raised State :=
  match i with
  | .hlt => fun p => .ok p.halt
  | .ldi a imm => ldiBody a imm
  | .prn a => prnBody a
  | .add a b => binaryBody addResult a b
  | .mul a b => binaryBody mulResult a b
  | .div a b => divBody a b
  | .cmp a b => cmpBody a b
  | .and a b => binaryBody andResult a b
  | .push a => pushBody a
  | .pop a => popBody a
  | .jmp a => jumpBody (fun _ => true) a
  | .jeq a => jumpBody (fun p => p.flagEQ) a
  | .jne a => jumpBody (fun p => !p.flagEQ) a

/-- Every meaning is the shared frame around its body. -/
theorem exec_eq_runBody (i : Instr) (s : State) : exec i s = runBody i (bodyOf i) s := by
  cases i <;> rfl

/-- What exec can do: end the body of its instruction, or enter a fault with nothing written but pc. -/
theorem exec_cases {i : Instr} {s t : State} (h : exec i s = .next t) :
    bodyOf i (s.preAdvance i.opcode) = .ok t ∨
      ∃ e, bodyOf i (s.preAdvance i.opcode) = .error e ∧ t = s.faultAfterFetch i.opcode e :=
  runBody_cases (exec_eq_runBody i s ▸ h)

/-- exec always answers a next state. -/
theorem exec_next (i : Instr) (s : State) : ∃ t, exec i s = .next t :=
  exec_eq_runBody i s ▸ runBody_next i (bodyOf i) s

/-- What a step can do: the status was Running, and it was a failed fetch, an unsupported byte, or the decoded instruction. -/
theorem step_cases {s t : State} (h : step s = .next t) :
    s.status = .running ∧
      (fetch s = .error t ∨
       (s.pc.toNat ≤ 253 ∧ ∃ e, decodeLatches s.latched = .error e ∧ t = s.latched.faultAfterFetch s.latched.ir (unsupportedByte e)) ∨
       (s.pc.toNat ≤ 253 ∧ ∃ i, decodeLatches s.latched = .ok i ∧ exec i s.latched = .next t)) := by
  unfold step at h
  split at h
  · cases h
  · cases h
  · next hr =>
    refine ⟨hr, ?_⟩
    split at h
    · next hf => cases h; exact .inl hf
    · next u hf =>
      obtain ⟨hpc, rfl⟩ := fetch_ok hf
      split at h
      · next e hd => cases h; exact .inr (.inl ⟨hpc, e, hd, rfl⟩)
      · next i hd => exact .inr (.inr ⟨hpc, i, hd, h⟩)

end Sys2Proof.Machine
end

