-- ==== Sys2Proof/Tests/Slice0.lean ====
section
/-! SUPPORT. The model's own tests: the words of 30_encoding.md R66, the vectors of 95_test_vectors.md (named by their id there), the
well-formedness smoke test, and a witness for the hypotheses of every obligation. Expected results come from the spec's tables. -/

namespace Sys2Proof.Tests

open Sys2Proof.Machine

/-! Helpers. -/

/-- A Running state with the given bytes at pc on, the given registers and FL. -/
def mkState (pc : Pc) (bytes : List Byte) (regs : Vector Byte 8) (fl : Byte) : State :=
  { State.reset with pc := pc, mem := placeBytes pc.toNat bytes [], regs := regs, fl := fl }

/-- Registers 0 to 3 and SP given, the rest 0. -/
def regs (x0 x1 x2 x3 sp : Byte) : Vector Byte 8 := #v[x0, x1, x2, x3, 0, 0, 0, sp]

/-- The outcome is a next state. -/
def isNext (o : Host.Outcome State Fault Refusal) : Bool :=
  match o with
  | .next _ => true
  | _ => false

/-- The next state of an outcome, the reset state where there is none. -/
def nextOf (o : Host.Outcome State Fault Refusal) : State :=
  match o with
  | .next t => t
  | _ => State.reset

theorem eq_next {o : Host.Outcome State Fault Refusal} (h : isNext o = true) : o = .next (nextOf o) := by
  cases o with
  | next t => rfl
  | fault r => cases h
  | refused r => cases h

/-- The state after one step; the reset state where there is none. -/
def after (s : State) : State := nextOf (step s)

/-- Cause and info of the record, and pc, after one step. -/
def faultAfter (s : State) : Option (FaultCause × FaultInfo × Pc) :=
  (after s).faultRecord.map (fun r => (r.cause, r.info, (after s).pc))

/-! Decoding: each constructor's bytes, written out bit by bit from 30_encoding.md R66 and R62. -/

theorem test_decode_hlt : decode 0b00000001#8 0b01000111#8 0b00000000#8 = .ok .hlt := by decide
theorem test_decode_ldi : decode 0b10000010#8 0b00000001#8 0b00001001#8 = .ok (.ldi 1 9) := by decide
theorem test_decode_prn : decode 0b01000111#8 0b00000010#8 0b00000001#8 = .ok (.prn 2) := by decide
theorem test_decode_add : decode 0b10100000#8 0b00000000#8 0b00000001#8 = .ok (.add 0 1) := by decide
theorem test_decode_mul : decode 0b10100010#8 0b00000010#8 0b00000011#8 = .ok (.mul 2 3) := by decide
theorem test_decode_div : decode 0b10100011#8 0b00000100#8 0b00000101#8 = .ok (.div 4 5) := by decide
theorem test_decode_cmp : decode 0b10100111#8 0b00000110#8 0b00000111#8 = .ok (.cmp 6 7) := by decide
theorem test_decode_and : decode 0b10101000#8 0b00000111#8 0b00000000#8 = .ok (.and 7 0) := by decide
theorem test_decode_push : decode 0b01000101#8 0b00000011#8 0b01000110#8 = .ok (.push 3) := by decide
theorem test_decode_pop : decode 0b01000110#8 0b00000011#8 0b00000001#8 = .ok (.pop 3) := by decide
theorem test_decode_jmp : decode 0b01010100#8 0b00000010#8 0b00000000#8 = .ok (.jmp 2) := by decide
theorem test_decode_jeq : decode 0b01010101#8 0b00000011#8 0b00000000#8 = .ok (.jeq 3) := by decide
theorem test_decode_jne : decode 0b01010110#8 0b00000011#8 0b00000000#8 = .ok (.jne 3) := by decide

/-- R67's example: LDI's identity bits with n = 0 spell no instruction; 0x00 is no NOP (R69). -/
theorem test_decode_rejects_handler_bytes :
    decode 0x02#8 0#8 0#8 = .error (.unsupportedOpcode 0x02#8) ∧ decode 0x00#8 0#8 0#8 = .error (.unsupportedOpcode 0x00#8) := by
  decide

/-- R105's corner cases: 0x27 has CMP's identity bits with n = 0; 0xFF has n = 3. -/
theorem test_decode_rejects_alu_bytes :
    decode 0x27#8 0#8 0#8 = .error (.unsupportedALUOperation 0x27#8) ∧
    decode 0xFF#8 0#8 0#8 = .error (.unsupportedALUOperation 0xFF#8) := by decide

/-- The table numbers bits from the first byte's bit 0; bits above nbits are 0. -/
theorem test_table_word : decodeTableWord 24 0x0100A0 = some (.add 0 1) ∧ decodeTableWord 8 0x0100A0 = some (.add 0 0) ∧
    decodeTableWord 8 0xC0 = none := by decide

/-! Well-formedness: each register operand of each instruction is checked. -/

theorem test_wellFormed_accepts :
    Instr.wellFormed .hlt = true ∧ Instr.wellFormed (.ldi 7 255) = true ∧ Instr.wellFormed (.add 0 7) = true ∧
    Instr.wellFormed (.push 7) = true := by decide
theorem test_illformed_ldi : Instr.wellFormed (.ldi 8 0) = false := by decide
theorem test_illformed_prn : Instr.wellFormed (.prn 255) = false := by decide
theorem test_illformed_add : Instr.wellFormed (.add 8 0) = false ∧ Instr.wellFormed (.add 0 8) = false := by decide
theorem test_illformed_mul : Instr.wellFormed (.mul 8 0) = false ∧ Instr.wellFormed (.mul 0 8) = false := by decide
theorem test_illformed_div : Instr.wellFormed (.div 8 0) = false ∧ Instr.wellFormed (.div 0 8) = false := by decide
theorem test_illformed_cmp : Instr.wellFormed (.cmp 8 0) = false ∧ Instr.wellFormed (.cmp 0 8) = false := by decide
theorem test_illformed_and : Instr.wellFormed (.and 8 0) = false ∧ Instr.wellFormed (.and 0 8) = false := by decide
theorem test_illformed_push : Instr.wellFormed (.push 8) = false := by decide
theorem test_illformed_pop : Instr.wellFormed (.pop 16) = false := by decide
theorem test_illformed_jmp : Instr.wellFormed (.jmp 8) = false := by decide
theorem test_illformed_jeq : Instr.wellFormed (.jeq 128) = false := by decide
theorem test_illformed_jne : Instr.wellFormed (.jne 9) = false := by decide

/-! One step each, from 95_test_vectors.md. -/

/-- A4, A7: unsigned comparison; the old EQ is cleared. -/
theorem test_cmp_unsigned : (after (mkState 0 [0xA7, 0, 1] (regs 0 255 0 0 0xF4) 0x80)).fl = 0x20#8 := by decide
/-- A5. -/
theorem test_cmp_top_bit : (after (mkState 0 [0xA7, 0, 1] (regs 0x80 0x7F 0 0 0xF4) 0)).fl = 0x40#8 := by decide
/-- A10. -/
theorem test_add_wraps : (after (mkState 0 [0xA0, 0, 1] (regs 200 100 0 0 0xF4) 0)).reg 0 = 44 := by decide
/-- A11: the source is also the destination. -/
theorem test_add_doubles : (after (mkState 0 [0xA0, 3, 3] (regs 0 0 0 0x90 0xF4) 0)).reg 3 = 0x20 := by decide
/-- A17. -/
theorem test_mul_wraps : (after (mkState 0 [0xA2, 0, 1] (regs 200 2 0 0 0xF4) 0)).reg 0 = 144 := by decide
/-- A16. -/
theorem test_mul_max : (after (mkState 0 [0xA2, 0, 1] (regs 15 17 0 0 0xF4) 0)).reg 0 = 255 := by decide
/-- A20. -/
theorem test_and_bits : (after (mkState 0 [0xA8, 0, 1] (regs 0xF0 0x3C 0 0 0xF4) 0)).reg 0 = 0x30 := by decide
/-- A27. -/
theorem test_div_truncates : (after (mkState 0 [0xA3, 0, 1] (regs 255 16 0 0 0xF4) 0)).reg 0 = 15 := by decide
/-- A29, A31: the zero divisor, and OutOfBounds before it. -/
theorem test_div_faults :
    faultAfter (mkState 0 [0xA3, 0, 1] (regs 7 0 0 0 0xF4) 0) = some (.divisionByZero, .divisorRegister 1, 3) ∧
    faultAfter (mkState 0 [0xA3, 0, 9] (regs 5 0 0 0 0xF4) 0) = some (.outOfBounds, .registerIndex 9, 3) := by decide
/-- L2. -/
theorem test_ldi_sp : (after (mkState 0 [0x82, 7, 0x80] (regs 0 0 0 0 0xF4) 0)).sp = 0x80 := by decide
/-- L5. -/
theorem test_ldi_bad_register : faultAfter (mkState 0 [0x82, 8, 1] (regs 0 0 0 0 0xF4) 0) = some (.outOfBounds, .registerIndex 8, 3) := by
  decide
/-- P2. -/
theorem test_prn_sp : (after (mkState 0 [0x47, 7] (regs 0 0 0 0 0xF4) 0)).out = [244] := by decide
/-- S2: PUSH R7 stores the decremented SP. -/
theorem test_push_sp : (after (mkState 0 [0x45, 7] (regs 0 0 0 0 0xF4) 0)).mem.read 0xF3 = 0xF3 := by decide
/-- S4. -/
theorem test_push_overflow : faultAfter (mkState 10 [0x45, 0] (regs 0 0 0 0 0) 0) = some (.stackOverflow, .sp 0, 12) := by decide
/-- S10: POP R7 leaves the popped value plus 1. -/
theorem test_pop_sp : (after { mkState 0 [0x46, 7] (regs 0 0 0 0 0xF3) 0 with mem := [(0, 0x46), (1, 7), (0xF3, 0x10)] }).sp = 0x11 := by
  decide
/-- S8. -/
theorem test_pop_underflow : faultAfter (mkState 0 [0x46, 1] (regs 0 0 0 0 0xF4) 0) = some (.stackUnderflow, .sp 0xF4, 2) := by decide
/-- J1, J2. -/
theorem test_jeq : (after (mkState 18 [0x55, 3] (regs 0 0 0 22 0xF4) 0x80)).pc = 22 ∧
    (after (mkState 18 [0x55, 3] (regs 0 0 0 22 0xF4) 0x20)).pc = 20 := by decide
/-- J4: the operand is checked though the jump would not be taken. -/
theorem test_jeq_checks_operand : faultAfter (mkState 0 [0x55, 8] (regs 0 0 0 0 0xF4) 0) = some (.outOfBounds, .registerIndex 8, 2) := by
  decide
/-- J5, J6. -/
theorem test_jne : (after (mkState 18 [0x56, 3] (regs 0 0 0 12 0xF4) 0)).pc = 12 ∧
    (after (mkState 18 [0x56, 3] (regs 0 0 0 12 0xF4) 0x80)).pc = 20 := by decide
/-- J8. -/
theorem test_jmp : (after (mkState 40 [0x54, 2] (regs 0 0 0 0 0xF4) 0)).pc = 0 := by decide
/-- H1. -/
theorem test_hlt : (after (mkState 11 [0x01] (regs 0 0 0 0 0xF4) 0)).status = .halted ∧
    (after (mkState 11 [0x01] (regs 0 0 0 0 0xF4) 0)).pc = 12 := by decide
/-- H2, H3: the fetch faults. -/
theorem test_fetch_faults : faultAfter (mkState 255 [0x01] (regs 0 0 0 0 0xF4) 0) = some (.outOfBounds, .address 256, 255) ∧
    faultAfter (mkState 256 [] (regs 0 0 0 0 0xF4) 0) = some (.outOfBounds, .address 256, 256) := by decide
/-- H4: pc reaches 256. -/
theorem test_pc_256 : (after (mkState 253 [0x82, 0, 5] (regs 0 0 0 0 0xF4) 0)).pc = 256 := by decide
/-- U3, A34: n = 3 advances pc by 4. -/
theorem test_unsupported : faultAfter (mkState 0 [0xC0] (regs 0 0 0 0 0xF4) 0) = some (.unsupportedOpcode, .ir 0xC0, 4) ∧
    faultAfter (mkState 0 [0xFF] (regs 0 0 0 0 0xF4) 0) = some (.unsupportedALUOperation, .ir 0xFF, 4) := by decide
/-- M1: a PUSH over its own operand byte runs as it was latched. -/
theorem test_push_over_itself : (after (mkState 6 [0x45, 0] (regs 0x99 0 0 0 8) 0)).mem = [(6, 0x45), (7, 0x99)] ∧
    (after (mkState 6 [0x45, 0] (regs 0x99 0 0 0 8) 0)).opA = 0 := by decide
/-- Where a table word is placed, the first step after reset runs it. -/
theorem test_withFetchWord : (after (State.reset.withFetchWord 24 0x2A0082)).reg 0 = 42 := by decide
/-- The codes of 60_exceptions.md R151. -/
theorem test_fault_codes : [FaultCause.unsupportedOpcode, .unsupportedALUOperation, .divisionByZero, .outOfBounds, .stackOverflow,
    .stackUnderflow].map faultCode = [1, 2, 3, 4, 5, 6] := by decide
/-- W1: the sink prints 17 and a newline. -/
theorem test_render : renderOutput [17] = ['1', '7', '\n'] := by decide

/-! Witnesses: concrete inputs that meet the hypotheses of each obligation, for each of its clauses. -/

/-- ADD R0,R1 at the last address a fetch can reach. -/
def add253 : State := mkState 253 [0xA0, 0, 1] (regs 200 100 0 0 0xF4) 0

/-- PUSH R0 whose store lands on its own opcode byte. -/
def pushOver : State := mkState 6 [0x45, 0] (regs 0x99 0 0 0 7) 0

theorem witness_DecodeAndEncodeAgree : decode 0xA7#8 255#8 3#8 = .ok (.cmp 255 3) := by decide

theorem witness_IllegalBytesAreRejectedByName :
    decode 0xA1#8 0#8 0#8 = .error (.unsupportedALUOperation 0xA1#8) ∧ (0xA1#8).getLsbD 5 = true ∧
    decode 0x83#8 0#8 0#8 = .error (.unsupportedOpcode 0x83#8) ∧ (0x83#8).getLsbD 5 = false := by decide

theorem witness_StepRunsTheDecodedInstruction : add253.status = .running ∧ add253.pc.toNat ≤ 253 ∧
    decode (add253.mem.read add253.pc.toNat) (add253.mem.read (add253.pc.toNat + 1)) (add253.mem.read (add253.pc.toNat + 2)) =
      .ok (.add 0 1) := by decide

theorem witness_StepRunsTheEncodedInstruction : add253.status = .running ∧ add253.pc.toNat ≤ 253 ∧
    ∀ k, (h : k < (encode (.add 0 1)).length) → add253.mem.read (add253.pc.toNat + k) = (encode (.add 0 1))[k] := by decide

theorem witness_FetchPastTheEndFaults :
    (mkState 256 [] (regs 0 0 0 0 0xF4) 0).status = .running ∧ 256 ≤ (mkState 256 [] (regs 0 0 0 0 0xF4) 0).pc.toNat ∧
    256 ≤ (mkState 511 [] (regs 0 0 0 0 0xF4) 0).pc.toNat ∧
    (mkState 255 [1] (regs 0 0 0 0 0xF4) 0).pc.toNat = 255 ∧ (mkState 254 [1] (regs 0 0 0 0 0xF4) 0).pc.toNat = 254 := by decide

theorem witness_UnsupportedALUByteFaults :
    (mkState 253 [0xFF] (regs 0 0 0 0 0xF4) 0).status = .running ∧ (mkState 253 [0xFF] (regs 0 0 0 0 0xF4) 0).pc.toNat ≤ 253 ∧
    ((mkState 253 [0xFF] (regs 0 0 0 0 0xF4) 0).mem.read 253).getLsbD 5 = true ∧
    (mkState 253 [0xFF] (regs 0 0 0 0 0xF4) 0).mem.read 253 ∉ [0xA0#8, 0xA2#8, 0xA3#8, 0xA7#8, 0xA8#8] := by decide

theorem witness_UnsupportedHandlerByteFaults : State.reset.status = .running ∧ State.reset.pc.toNat ≤ 253 ∧
    (State.reset.mem.read State.reset.pc.toNat).getLsbD 5 = false ∧
    State.reset.mem.read State.reset.pc.toNat ∉ [0x01#8, 0x82#8, 0x47#8, 0x45#8, 0x46#8, 0x54#8, 0x55#8, 0x56#8] := by decide

theorem witness_EngineStepsExactlyWhileRunning : (∃ t, step add253 = .next t) ∧ add253.status = .running ∧
    (after (mkState 0 [0x01] (regs 0 0 0 0 0xF4) 0)).status = .halted ∧ (after State.reset).status = .faulted :=
  ⟨⟨_, eq_next (by decide)⟩, by decide, by decide, by decide⟩

theorem witness_LatchesHoldTheFetchedBytes : pushOver.pc.toNat ≤ 253 ∧ step pushOver = .next (after pushOver) ∧
    (after pushOver).mem.read 6 = 0x99 :=
  ⟨by decide, eq_next (by decide), by decide⟩

theorem witness_LdiLoadsItsImmediate : (7#8).toNat < 8 ∧ 8 ≤ (8#8).toNat := by decide

theorem witness_PrnEmitsItsRegister : (0#8).toNat < 8 ∧ 8 ≤ (255#8).toNat := by decide

theorem witness_AddWrapsModulo256 : (0#8).toNat < 8 ∧ (7#8).toNat < 8 ∧ 8 ≤ (8#8).toNat := by decide

theorem witness_MulKeepsTheLowByte : (7#8).toNat < 8 ∧ (0#8).toNat < 8 ∧ 8 ≤ (8#8).toNat := by decide

theorem witness_AndIsBitwise : (7#8).toNat < 8 ∧ (7#8).toNat < 8 ∧ 8 ≤ (8#8).toNat := by decide

theorem witness_DivTruncatesAndFaultsOnZero : (0#8).toNat < 8 ∧ (7#8).toNat < 8 ∧ State.reset.reg 7 ≠ 0 ∧ State.reset.reg 0 = 0 ∧
    8 ≤ (8#8).toNat := by decide

theorem witness_CmpSetsExactlyOneFlag : (6#8).toNat < 8 ∧ (7#8).toNat < 8 ∧ 8 ≤ (8#8).toNat := by decide

theorem witness_PushStoresBelowTheStackPointer : (7#8).toNat < 8 ∧ (mkState 0 [] (regs 0 0 0 0 1) 0).sp ≠ 0 ∧
    (mkState 0 [] (regs 0 0 0 0 0) 0).sp = 0 ∧ 8 ≤ (8#8).toNat := by decide

theorem witness_PopLoadsFromTheStackPointer : (6#8).toNat < 8 ∧ (6#8).toNat ≠ 7 ∧ (7#8).toNat = 7 ∧
    (mkState 0 [] (regs 0 0 0 0 0xF3) 0).sp.toNat < 0xF4 ∧ 0xF4 ≤ (mkState 0 [] (regs 0 0 0 0 0xF4) 0).sp.toNat ∧ 8 ≤ (8#8).toNat := by decide

theorem witness_JeqJumpsWhenEqualIsSet : (7#8).toNat < 8 ∧ (mkState 0 [] (regs 0 0 0 0 0) 0x80).fl.getLsbD 7 = true ∧
    (mkState 0 [] (regs 0 0 0 0 0) 0x60).fl.getLsbD 7 = false ∧ 8 ≤ (8#8).toNat := by decide

theorem witness_JneJumpsWhenEqualIsClear : (7#8).toNat < 8 ∧ State.reset.fl.getLsbD 7 = false ∧
    (mkState 0 [] (regs 0 0 0 0 0) 0x80).fl.getLsbD 7 = true ∧ 8 ≤ (8#8).toNat := by decide

theorem witness_JmpGoesToItsRegister : (7#8).toNat < 8 ∧ 8 ≤ (8#8).toNat := by decide

theorem witness_HltHalts :
    ((mkState 253 [1] (regs 0 0 0 0 0xF4) 0).status = .running ∧ (mkState 253 [1] (regs 0 0 0 0 0xF4) 0).mem.read 253 = 0x01#8 ∧
      (mkState 253 [1] (regs 0 0 0 0 0xF4) 0).pc.toNat ≤ 253) ∧
    ((mkState 254 [1] (regs 0 0 0 0 0xF4) 0).mem.read 254 = 0x01#8 ∧ (mkState 254 [1] (regs 0 0 0 0 0xF4) 0).pc.toNat = 254) ∧
    ((mkState 255 [1] (regs 0 0 0 0 0xF4) 0).mem.read 255 = 0x01#8 ∧ (mkState 255 [1] (regs 0 0 0 0 0xF4) 0).pc.toNat = 255) := by decide

/-- Operand b bad alone, and both bad: a is named. -/
theorem witness_FirstBadRegisterOperandFaults :
    (Instr.registerOperands (.div 7 8)).find? (fun x => decide (8 ≤ x.toNat)) = some 8 ∧
    (Instr.registerOperands (.add 9 8)).find? (fun x => decide (8 ≤ x.toNat)) = some 9 := by decide

/-- The four faulting cases and a case that does not fault, each from a state that is not Faulted. -/
theorem witness_InstructionFaultsExactlyWhen :
    State.reset.status ≠ .faulted ∧
    (nextOf (exec (.prn 8) State.reset)).status = .faulted ∧ (nextOf (exec (.div 7 0) State.reset)).status = .faulted ∧
    (nextOf (exec (.push 0) (mkState 0 [] (regs 0 0 0 0 0) 0))).status = .faulted ∧
    (nextOf (exec (.pop 0) State.reset)).status = .faulted ∧
    exec (.pop 0) (mkState 0 [] (regs 0 0 0 0 0xF3) 0) = .next (nextOf (exec (.pop 0) (mkState 0 [] (regs 0 0 0 0 0xF3) 0))) ∧
    (nextOf (exec (.pop 0) (mkState 0 [] (regs 0 0 0 0 0xF3) 0))).status = .running :=
  ⟨by decide, by decide, by decide, by decide, by decide, eq_next (by decide), by decide⟩

/-- A fault in the fetch, with and without a byte at pc, and one after it. -/
theorem witness_FaultsArePrecise :
    step (mkState 255 [1] (regs 0 0 0 0 0) 0) = .next (after (mkState 255 [1] (regs 0 0 0 0 0) 0)) ∧
    (after (mkState 255 [1] (regs 0 0 0 0 0) 0)).status = .faulted ∧
    (after (mkState 256 [] (regs 0 0 0 0 0) 0)).status = .faulted ∧ (after State.reset).status = .faulted :=
  ⟨eq_next (by decide), by decide, by decide, by decide⟩

theorem witness_RegisterWritersFrame :
    Instr.div 0 7 ∈ [Instr.ldi 0 7, .add 0 7, .mul 0 7, .and 0 7, .div 0 7] ∧
    exec (.div 0 7) State.reset = .next (nextOf (exec (.div 0 7) State.reset)) ∧
    (nextOf (exec (.div 0 7) State.reset)).status ≠ .faulted :=
  ⟨by decide, eq_next (by decide), by decide⟩

theorem witness_CmpFrame : exec (.cmp 0 7) State.reset = .next (nextOf (exec (.cmp 0 7) State.reset)) ∧
    (nextOf (exec (.cmp 0 7) State.reset)).status ≠ .faulted ∧ (nextOf (exec (.cmp 0 8) State.reset)).status = .faulted ∧
    State.reset.status ≠ .faulted :=
  ⟨eq_next (by decide), by decide, by decide, by decide⟩

theorem witness_OutputAndControlFrame : Instr.jmp 7 ∈ [Instr.prn 7, .jmp 7, .jeq 7, .jne 7, .hlt] ∧
    exec (.jmp 7) State.reset = .next (nextOf (exec (.jmp 7) State.reset)) ∧ Instr.jmp 7 ≠ .prn 7 ∧ Instr.jmp 7 ≠ .hlt ∧
    (nextOf (exec (.jmp 7) State.reset)).status ≠ .faulted :=
  ⟨by decide, eq_next (by decide), by decide, by decide, by decide⟩

theorem witness_PushFrame : exec (.push 7) State.reset = .next (nextOf (exec (.push 7) State.reset)) ∧
    (nextOf (exec (.push 7) State.reset)).status ≠ .faulted ∧ 0xF4 ≠ State.reset.pushAddress.toNat :=
  ⟨eq_next (by decide), by decide, by decide⟩

theorem witness_PopFrame : exec (.pop 0) (mkState 0 [] (regs 0 0 0 0 0xF3) 0) = .next (nextOf (exec (.pop 0) (mkState 0 [] (regs 0 0 0 0 0xF3) 0))) ∧
    (nextOf (exec (.pop 0) (mkState 0 [] (regs 0 0 0 0 0xF3) 0))).status ≠ .faulted :=
  ⟨eq_next (by decide), by decide⟩

theorem witness_PcAdvancesOrJumps : exec (.jne 7) State.reset = .next (nextOf (exec (.jne 7) State.reset)) ∧
    (nextOf (exec (.jne 7) State.reset)).pc = 0xF4 :=
  ⟨eq_next (by decide), by decide⟩

theorem witness_OnlyCmpChangesFlags :
    step (mkState 253 [0xA7, 0, 1] (regs 0 0 0 0 0) 0) = .next (after (mkState 253 [0xA7, 0, 1] (regs 0 0 0 0 0) 0)) ∧
    (after (mkState 253 [0xA7, 0, 1] (regs 0 0 0 0 0) 0)).fl ≠ (mkState 253 [0xA7, 0, 1] (regs 0 0 0 0 0) 0).fl :=
  ⟨eq_next (by decide), by decide⟩

theorem witness_OnlyPushChangesMemory : step pushOver = .next (after pushOver) ∧
    (after pushOver).mem.read 6 ≠ pushOver.mem.read 6 :=
  ⟨eq_next (by decide), by decide⟩

theorem witness_OnlyPrnEmits : step (mkState 253 [0x47, 7] (regs 0 0 0 0 9) 0) = .next (after (mkState 253 [0x47, 7] (regs 0 0 0 0 9) 0)) ∧
    (after (mkState 253 [0x47, 7] (regs 0 0 0 0 9) 0)).out ≠ (mkState 253 [0x47, 7] (regs 0 0 0 0 9) 0).out :=
  ⟨eq_next (by decide), by decide⟩

theorem witness_OnlyHltHalts : step (mkState 253 [1] (regs 0 0 0 0 0) 0) = .next (after (mkState 253 [1] (regs 0 0 0 0 0) 0)) ∧
    (after (mkState 253 [1] (regs 0 0 0 0 0) 0)).status = .halted :=
  ⟨eq_next (by decide), by decide⟩

/-- An unsupported byte with n = 3 at 253 leaves pc = 257 (log entry 3), inside the invariant's bound after a fault. -/
theorem witness_StepKeepsTheInvariant : State.Inv (mkState 253 [0xC0] (regs 0 0 0 0 0xF4) 0) ∧
    step (mkState 253 [0xC0] (regs 0 0 0 0 0xF4) 0) = .next (after (mkState 253 [0xC0] (regs 0 0 0 0 0xF4) 0)) ∧
    (after (mkState 253 [0xC0] (regs 0 0 0 0 0xF4) 0)).pc.toNat = 257 :=
  ⟨⟨by decide, .inl rfl, by decide, by decide, by decide⟩, eq_next (by decide), by decide⟩

theorem witness_EveryReachedStateMeetsTheInvariant :
    boot [] = .ok State.reset ∧ Reaches State.reset (after State.reset) :=
  ⟨rfl, .step (.refl _) (eq_next (by decide))⟩

theorem witness_LatchesNeverMatterToARun :
    Claims.agreeButLatches add253 { add253 with ir := 1, opA := 2, opB := 3 } ∧
    Sys2Proof.core.run 1 add253 = .next (nextOf (Sys2Proof.core.run 1 add253)) :=
  ⟨rfl, eq_next (by decide)⟩

theorem witness_OutputIsNeverRead : step add253 = .next (after add253) := eq_next (by decide)

theorem witness_OnlyEqualFlagIsRead : (0x60#8).getLsbD 7 = add253.fl.getLsbD 7 ∧ step add253 = .next (after add253) :=
  ⟨by decide, eq_next (by decide)⟩

/-- The highest SP from which both succeed, and R7 itself. -/
theorem witness_PushThenPopRestoresRegisters : (7#8).toNat < 8 ∧ State.reset.sp ≠ 0 ∧ State.reset.sp.toNat ≤ 0xF4 ∧
    (mkState 0 [] (regs 0 0 0 0 1) 0).sp ≠ 0 := by decide

theorem witness_AccessorsStoreOneByteAndCheckBounds : (255 : Nat) ≤ 255 ∧ (256 : Nat) ≤ 256 := by decide

theorem witness_BootLoadsTheImage : (List.replicate 256 (1 : Byte)).length ≤ 256 ∧ 256 < (List.replicate 257 (1 : Byte)).length :=
  ⟨by rw [List.length_replicate], by rw [List.length_replicate]; omega⟩

end Sys2Proof.Tests
end

/-! ## What one instruction can do to the state

`BodyEffect` lists the writes a body can make; one `exec_…` lemma per piece of the state follows from it. -/

namespace Sys2Proof

/-- The register operand an instruction writes to (10_state.md R23). -/
def Instr.destination : Instr → Option RegOperand
  | .ldi a _ | .add a _ | .mul a _ | .and a _ | .div a _ | .pop a => some a
  | _ => none

/-- The instruction moves SP, whatever its operand (42_control_and_stack.md R122, R123). -/
def Instr.movesSp : Instr → Bool
  | .push _ | .pop _ => true
  | _ => false

/-- The instruction is a jump through register operand `a` that is taken when EQ is as given (42_control_and_stack.md R124 to
R126). -/
def Instr.jumpsWhen (i : Instr) (a : RegOperand) (eq : Bool) : Prop :=
  i = .jmp a ∨ i = .jeq a ∧ eq = true ∨ i = .jne a ∧ eq = false

/-- Only HLT has HLT's first byte. -/
theorem Instr.opcode_eq_opHLT (i : Instr) : i.opcode = opHLT ↔ i = .hlt := by
  cases i <;> simp [Instr.opcode] <;> decide

/-- No instruction has more than two operands (30_encoding.md R66). -/
theorem Instr.operandCount_opcode_le (i : Instr) : operandCount i.opcode ≤ 2 := by
  cases i <;> simp [Instr.opcode]

/-- A decoded PRN has the second byte as its operand (30_encoding.md R71). -/
theorem operand_of_decode_prn {ir a b : Byte} {r : RegOperand} (h : decode ir a b = .ok (.prn r)) : r = a := by
  unfold decode decodeAlu decodeHandler at h
  repeat' split at h
  all_goals cases h
  rfl

/-- HLT's byte decodes to HLT, whatever follows it. -/
theorem decode_opHLT (a b : Byte) : decode opHLT a b = .ok .hlt := rfl

namespace Machine

/-- The writes that the body of an instruction, started after the pre-advance in `p`, can make when it does not fault
(41_alu.md, 42_control_and_stack.md). Where no statement needs a value, it is left open. -/
inductive BodyEffect (p : State) : Instr → State → Prop where
  | setReg {i : Instr} {a : RegOperand} (hi : i.destination = some a) (ha : a.toNat < 8) (v : Byte) :
      BodyEffect p i (p.setReg ⟨a.toNat, ha⟩ v)
  | cmp (a b : RegOperand) (x y : Byte) : BodyEffect p (.cmp a b) (p.setFl (compareFlags x y))
  | prn (a : RegOperand) (ha : a.toNat < 8) : BodyEffect p (.prn a) (p.emit (p.reg ⟨a.toNat, ha⟩))
  | push (a : RegOperand) (hsp : p.sp ≠ 0) (v : Byte) :
      BodyEffect p (.push a) { p.setSp p.pushAddress with mem := p.mem.write p.pushAddress.toNat v }
  | pop (a : RegOperand) (ha : a.toNat < 8) (v w : Byte) :
      BodyEffect p (.pop a) ((p.setReg ⟨a.toNat, ha⟩ v).setSp w)
  | jump {i : Instr} {a : RegOperand} (hi : i.jumpsWhen a p.flagEQ) (ha : a.toNat < 8) :
      BodyEffect p i (p.jump (p.reg ⟨a.toNat, ha⟩))
  | fallThrough {i : Instr} : BodyEffect p i p
  | hlt : BodyEffect p .hlt p.halt

/-- A jump's body jumps or does nothing. -/
theorem jumpBody_effect (taken : State → Bool) {i : Instr} {a : RegOperand} {p t : State}
    (hi : taken p = true → i.jumpsWhen a p.flagEQ) (h : jumpBody taken a p = .ok t) : BodyEffect p i t := by
  obtain ⟨ha, rfl⟩ := jumpBody_ok h
  split
  · next htaken => exact .jump (hi htaken) ha
  · exact .fallThrough

/-- Every body that does not fault has one of the effects listed. -/
theorem bodyOf_effect {i : Instr} {p t : State} (h : bodyOf i p = .ok t) : BodyEffect p i t := by
  cases i with
  | hlt => cases h; exact .hlt
  | ldi a imm => obtain ⟨ha, rfl⟩ := ldiBody_ok h; exact .setReg rfl ha _
  | prn a => obtain ⟨ha, rfl⟩ := prnBody_ok h; exact .prn a ha
  | add a b => obtain ⟨ha, _, rfl⟩ := binaryBody_ok h; exact .setReg rfl ha _
  | mul a b => obtain ⟨ha, _, rfl⟩ := binaryBody_ok h; exact .setReg rfl ha _
  | and a b => obtain ⟨ha, _, rfl⟩ := binaryBody_ok h; exact .setReg rfl ha _
  | div a b => obtain ⟨ha, _, _, rfl⟩ := divBody_ok h; exact .setReg rfl ha _
  | cmp a b => obtain ⟨_, _, rfl⟩ := cmpBody_ok h; exact .cmp a b _ _
  | push a => obtain ⟨_, hsp, rfl⟩ := pushBody_ok h; exact .push a hsp _
  | pop a => obtain ⟨ha, _, rfl⟩ := popBody_ok h; exact .pop a ha _ _
  | jmp a => exact jumpBody_effect (fun _ => true) (fun _ => .inl rfl) h
  | jeq a => exact jumpBody_effect (fun p => p.flagEQ) (fun hEQ => .inr (.inl ⟨rfl, hEQ⟩)) h
  | jne a => exact jumpBody_effect (fun p => !p.flagEQ) (fun hEQ => .inr (.inr ⟨rfl, by simpa using hEQ⟩)) h

/-- What exec can do: enter a fault with nothing written but pc, or the effect of its body after the pre-advance. -/
theorem exec_effect {i : Instr} {s t : State} (h : exec i s = .next t) :
    (∃ e, t = s.faultAfterFetch i.opcode e) ∨ BodyEffect (s.preAdvance i.opcode) i t := by
  rcases exec_cases h with hok | ⟨e, -, ht⟩
  · exact .inr (bodyOf_effect hok)
  · exact .inl ⟨e, ht⟩

section Exec

variable {i : Instr} {s t : State}

/-- An instruction leaves a register alone that is not its destination, nor SP moved by PUSH or POP. -/
theorem exec_reg (h : exec i s = .next t) {r : RegIndex} (hdest : ∀ a, i.destination = some a → r.val ≠ a.toNat)
    (hsp : i.movesSp = true → r ≠ 7) : t.reg r = s.reg r := by
  rcases exec_effect h with ⟨e, rfl⟩ | heff
  · rfl
  · cases heff with
    | setReg hi ha v => simp [Fin.ext_iff, hdest _ hi]
    | push a _ v => exact (State.setSp_reg ..).trans (if_neg (hsp rfl))
    | pop a ha v w => simp [hsp rfl, Fin.ext_iff, hdest a rfl]
    | _ => rfl

/-- An instruction with no destination that does not move SP writes no register. -/
theorem exec_regs (h : exec i s = .next t) (hdest : i.destination = none) (hsp : i.movesSp = false) : t.regs = s.regs := by
  ext r hr : 1
  exact exec_reg h (r := ⟨r, hr⟩) (by simp [hdest]) (by simp [hsp])

/-- Only CMP writes FL, and it sets exactly one flag (10_state.md R25). -/
theorem exec_fl (h : exec i s = .next t) : t.fl = s.fl ∨ ∃ a b x y, i = .cmp a b ∧ t.fl = compareFlags x y := by
  rcases exec_effect h with ⟨e, rfl⟩ | heff
  · exact .inl rfl
  · cases heff with
    | cmp a b x y => exact .inr ⟨a, b, x, y, rfl, rfl⟩
    | _ => exact .inl rfl

/-- Only PUSH writes memory, at SP - 1 (20_memory.md R41). -/
theorem exec_mem (h : exec i s = .next t) :
    t.mem = s.mem ∨ ∃ a v, i = .push a ∧ s.sp ≠ 0 ∧ t.mem = s.mem.write s.pushAddress.toNat v := by
  rcases exec_effect h with ⟨e, rfl⟩ | heff
  · exact .inl rfl
  · cases heff with
    | push a hsp v => exact .inr ⟨a, v, rfl, hsp, rfl⟩
    | _ => exact .inl rfl

/-- Only PRN emits, the value of its register (10_state.md R31). -/
theorem exec_out (h : exec i s = .next t) :
    t.out = s.out ∨ ∃ a, ∃ ha : a.toNat < 8, i = .prn a ∧ t.out = s.out ++ [s.reg ⟨a.toNat, ha⟩] := by
  rcases exec_effect h with ⟨e, rfl⟩ | heff
  · exact .inl rfl
  · cases heff with
    | prn a ha => exact .inr ⟨a, ha, rfl, rfl⟩
    | _ => exact .inl rfl

/-- No instruction writes a latch (10_state.md R28). -/
theorem exec_latches (h : exec i s = .next t) : t.ir = s.ir ∧ t.opA = s.opA ∧ t.opB = s.opB := by
  rcases exec_effect h with ⟨e, rfl⟩ | heff
  · exact ⟨rfl, rfl, rfl⟩
  · cases heff <;> exact ⟨rfl, rfl, rfl⟩

/-- An instruction enters a fault, or keeps the fault record and, but for HLT, the status (10_state.md R29, R30). -/
theorem exec_status (h : exec i s = .next t) :
    (∃ e, t = s.faultAfterFetch i.opcode e) ∨
      t.faultRecord = s.faultRecord ∧ (t.status = s.status ∨ i = .hlt ∧ t.status = .halted) := by
  rcases exec_effect h with he | heff
  · exact .inl he
  · refine .inr ?_
    cases heff with
    | hlt => exact ⟨rfl, .inr ⟨rfl, rfl⟩⟩
    | _ => exact ⟨rfl, .inl rfl⟩

/-- Where an instruction other than HLT does not fault, it keeps the status and the fault record. -/
theorem exec_status_of_ne_hlt (h : exec i s = .next t) (hi : i ≠ .hlt) (ht : t.status ≠ .faulted) :
    t.status = s.status ∧ t.faultRecord = s.faultRecord := by
  rcases exec_status h with ⟨e, rfl⟩ | ⟨hrec, hst | ⟨hhlt, -⟩⟩
  · exact absurd rfl ht
  · exact ⟨hst, hrec⟩
  · exact absurd hhlt hi

/-- After an instruction pc is past its bytes, or the value of a taken jump's register (40_fetch_decode_execute.md R84). -/
theorem exec_pc (h : exec i s = .next t) :
    t.pc = (s.preAdvance i.opcode).pc ∨
      ∃ a, ∃ ha : a.toNat < 8, i.jumpsWhen a s.flagEQ ∧ t.pc = (s.reg ⟨a.toNat, ha⟩).setWidth 9 := by
  rcases exec_effect h with ⟨e, rfl⟩ | heff
  · exact .inl rfl
  · cases heff with
    | jump hi ha => exact .inr ⟨_, ha, hi, rfl⟩
    | _ => exact .inl rfl

/-- From a Running state only HLT halts. -/
theorem exec_halted_iff (h : exec i s = .next t) (hs : s.status = .running) : t.status = .halted ↔ i = .hlt := by
  constructor
  · intro ht
    rcases exec_status h with ⟨e, rfl⟩ | ⟨-, hst | ⟨hi, -⟩⟩
    · cases ht
    · rw [hst, hs] at ht; cases ht
    · exact hi
  · rintro rfl
    cases h
    rfl

end Exec

/-! ## The frames -/

/-- Settles O28: each of the five has x[a] as its destination, does not move SP, and is none of CMP, PUSH, PRN and HLT. -/
theorem registerWritersFrame : Obligations.RegisterWritersFrame := by
  unfold Obligations.RegisterWritersFrame
  intro a b i s t hi h
  have hdest : i.destination = some a ∧ i.movesSp = false := by
    simp only [List.mem_cons, List.not_mem_nil, or_false] at hi
    rcases hi with rfl | rfl | rfl | rfl | rfl <;> exact ⟨rfl, rfl⟩
  obtain ⟨hdest, hsp⟩ := hdest
  have hmem : t.mem = s.mem := (exec_mem h).resolve_right fun ⟨c, _, hc, _⟩ => by simp [hc, Instr.movesSp] at hsp
  have hfl : t.fl = s.fl := (exec_fl h).resolve_right fun ⟨c, d, _, _, hc, _⟩ => by simp [hc, Instr.destination] at hdest
  have hout : t.out = s.out := (exec_out h).resolve_right fun ⟨c, _, hc, _⟩ => by simp [hc, Instr.destination] at hdest
  have hne : i ≠ .hlt := fun hc => by simp [hc, Instr.destination] at hdest
  obtain ⟨hir, hA, hB⟩ := exec_latches h
  exact ⟨fun r hr => exec_reg h (by simpa [hdest] using hr) (by simp [hsp]), hfl, fun _ => by rw [hmem], hout, hir, hA, hB,
    exec_status_of_ne_hlt h hne⟩

/-- Settles O29: CMP has no destination, and a fault keeps FL. -/
theorem cmpFrame : Obligations.CmpFrame := by
  unfold Obligations.CmpFrame
  intro a b s t h
  have hmem : t.mem = s.mem := (exec_mem h).resolve_right (by simp)
  have hout : t.out = s.out := (exec_out h).resolve_right (by simp)
  have hfl : t.status = .faulted → s.status ≠ .faulted → t.fl = s.fl := by
    intro ht hs
    rcases exec_status h with ⟨e, rfl⟩ | ⟨-, hst | ⟨hi, -⟩⟩
    · rfl
    · exact absurd (hst ▸ ht) hs
    · cases hi
  obtain ⟨hir, hA, hB⟩ := exec_latches h
  exact ⟨exec_regs h rfl rfl, fun _ => by rw [hmem], hout, hir, hA, hB, hfl, exec_status_of_ne_hlt h (by simp)⟩

/-- Settles O30: none of the five has a destination, moves SP or is CMP. -/
theorem outputAndControlFrame : Obligations.OutputAndControlFrame := by
  unfold Obligations.OutputAndControlFrame
  intro a i s t hi h
  have hkind : i.destination = none ∧ i.movesSp = false ∧ (∀ c d, i ≠ .cmp c d) ∧ (∀ c, i = .prn c → c = a) := by
    simp only [List.mem_cons, List.not_mem_nil, or_false] at hi
    rcases hi with rfl | rfl | rfl | rfl | rfl <;> simp [Instr.destination, Instr.movesSp, eq_comm]
  obtain ⟨hdest, hsp, hcmp, hprn⟩ := hkind
  have hmem : t.mem = s.mem := (exec_mem h).resolve_right fun ⟨c, _, hc, _⟩ => by simp [hc, Instr.movesSp] at hsp
  have hfl : t.fl = s.fl := (exec_fl h).resolve_right fun ⟨c, d, _, _, hc, _⟩ => hcmp c d hc
  have hout : i ≠ .prn a → t.out = s.out := fun hne =>
    (exec_out h).resolve_right fun ⟨c, _, hc, _⟩ => hne (hprn c hc ▸ hc)
  have hstatus : t.status ≠ .faulted → t.faultRecord = s.faultRecord ∧ (i ≠ .hlt → t.status = s.status) := by
    intro ht
    rcases exec_status h with ⟨e, rfl⟩ | ⟨hrec, -⟩
    · exact absurd rfl ht
    · exact ⟨hrec, fun hne => (exec_status_of_ne_hlt h hne ht).1⟩
  obtain ⟨hir, hA, hB⟩ := exec_latches h
  exact ⟨exec_regs h hdest hsp, hfl, fun _ => by rw [hmem], hir, hA, hB, hout, hstatus⟩

/-- Settles O31: PUSH's only register is SP, and its only store is at SP - 1. -/
theorem pushFrame : Obligations.PushFrame := by
  unfold Obligations.PushFrame
  intro a s t h
  have hfl : t.fl = s.fl := (exec_fl h).resolve_right (by simp)
  have hout : t.out = s.out := (exec_out h).resolve_right (by simp)
  have hmem : ∀ addr, addr ≠ s.pushAddress.toNat → t.mem.read addr = s.mem.read addr := by
    intro addr hne
    rcases exec_mem h with hm | ⟨_, v, -, -, hm⟩
    · rw [hm]
    · rw [hm, Memory.read_write, if_neg hne]
  obtain ⟨hir, hA, hB⟩ := exec_latches h
  exact ⟨fun r hr => exec_reg h (by simp [Instr.destination]) (fun _ => hr), hfl, hmem, hout, hir, hA, hB,
    exec_status_of_ne_hlt h (by simp)⟩

/-- Settles O32: POP's only registers are its destination and SP. -/
theorem popFrame : Obligations.PopFrame := by
  unfold Obligations.PopFrame
  intro a s t h
  have hfl : t.fl = s.fl := (exec_fl h).resolve_right (by simp)
  have hmem : t.mem = s.mem := (exec_mem h).resolve_right (by simp)
  have hout : t.out = s.out := (exec_out h).resolve_right (by simp)
  obtain ⟨hir, hA, hB⟩ := exec_latches h
  exact ⟨fun r ha hsp => exec_reg h (by simpa [Instr.destination] using ha) (fun _ => hsp), hfl, fun _ => by rw [hmem], hout,
    hir, hA, hB, exec_status_of_ne_hlt h (by simp)⟩

/-! ## What one step can do to the state -/

/-- The state after a fetch that leaves memory, as one value for every such pc (40_fetch_decode_execute.md R81, R88). -/
def State.fetchFault (s : State) : State :=
  State.takeFault
    { s with
      ir := if s.pc.toNat ≤ 255 then s.mem.read s.pc.toNat else s.ir
      opA := if s.pc.toNat = 254 then s.mem.read 255 else s.opA }
    (outOfBoundsAddress (max 256 s.pc.toNat)) s.pc (if s.pc.toNat ≤ 255 then some (s.mem.read s.pc.toNat) else none)

section FetchFault
variable (s : State)
@[simp] theorem State.fetchFault_regs : s.fetchFault.regs = s.regs := rfl
@[simp] theorem State.fetchFault_pc : s.fetchFault.pc = s.pc := rfl
@[simp] theorem State.fetchFault_fl : s.fetchFault.fl = s.fl := rfl
@[simp] theorem State.fetchFault_mem : s.fetchFault.mem = s.mem := rfl
@[simp] theorem State.fetchFault_status : s.fetchFault.status = .faulted := rfl
@[simp] theorem State.fetchFault_faultRecord : s.fetchFault.faultRecord =
    some ⟨.outOfBounds, s.pc, if s.pc.toNat ≤ 255 then some (s.mem.read s.pc.toNat) else none, .address (max 256 s.pc.toNat)⟩ :=
  rfl
@[simp] theorem State.fetchFault_out : s.fetchFault.out = s.out := rfl
end FetchFault

/-- A fetch from 254 on fails. -/
theorem fetch_of_254_le {s : State} (h : 254 ≤ s.pc.toNat) : fetch s = .error s.fetchFault := by
  rcases (by omega : s.pc.toNat = 254 ∨ s.pc.toNat = 255 ∨ 256 ≤ s.pc.toNat) with hpc | hpc | hpc
  · rw [fetch_of_254 hpc]; simp [State.fetchFault, hpc]
  · rw [fetch_of_255 hpc]; simp [State.fetchFault, hpc]
  · have hne : s.pc.toNat ≠ 254 := by omega
    have hgt : ¬ s.pc.toNat ≤ 255 := by omega
    rw [fetch_of_ge hpc]; simp [State.fetchFault, hpc, hne, hgt]

section Step

variable {s t : State}

theorem step_of_254_le (hs : s.status = .running) (hpc : 254 ≤ s.pc.toNat) : step s = .next s.fetchFault := by
  simp only [step, hs, fetch_of_254_le hpc]

theorem step_of_decode_error (hs : s.status = .running) (hpc : s.pc.toNat ≤ 253) {e : DecodeError}
    (hd : decodeLatches s.latched = .error e) :
    step s = .next (s.latched.faultAfterFetch s.latched.ir (unsupportedByte e)) := by
  have hf : fetch s = .ok s.latched := fetch_of_le hpc
  simp only [step, hs, hf, hd, execUnsupported]

theorem step_of_decode_ok (hs : s.status = .running) (hpc : s.pc.toNat ≤ 253) {i : Instr}
    (hd : decodeLatches s.latched = .ok i) : step s = exec i s.latched := by
  have hf : fetch s = .ok s.latched := fetch_of_le hpc
  simp only [step, hs, hf, hd]

/-- A Running engine takes a step (40_fetch_decode_execute.md R80). -/
theorem step_next (hs : s.status = .running) : ∃ t, step s = .next t := by
  by_cases hpc : s.pc.toNat ≤ 253
  · cases hd : decodeLatches s.latched with
    | error e => exact ⟨_, step_of_decode_error hs hpc hd⟩
    | ok i => rw [step_of_decode_ok hs hpc hd]; exact exec_next i _
  · exact ⟨_, step_of_254_le hs (by omega)⟩

/-- The three kinds of step, `step_cases` with the failed fetch's state named. -/
inductive StepKind (s t : State) : Prop where
  | fetchFault (hpc : 254 ≤ s.pc.toNat) (ht : t = s.fetchFault)
  | unsupported (hpc : s.pc.toNat ≤ 253) (e : DecodeError) (hd : decodeLatches s.latched = .error e)
      (ht : t = s.latched.faultAfterFetch s.latched.ir (unsupportedByte e))
  | instr (hpc : s.pc.toNat ≤ 253) (i : Instr) (hd : decodeLatches s.latched = .ok i) (hx : exec i s.latched = .next t)

theorem step_kind (h : step s = .next t) : s.status = .running ∧ StepKind s t := by
  obtain ⟨hs, hf | ⟨hpc, e, hd, ht⟩ | ⟨hpc, i, hd, hx⟩⟩ := step_cases h
  · obtain ⟨hpc, -⟩ := fetch_error hf
    rw [fetch_of_254_le hpc] at hf
    cases hf
    exact ⟨hs, .fetchFault hpc rfl⟩
  · exact ⟨hs, .unsupported hpc e hd ht⟩
  · exact ⟨hs, .instr hpc i hd hx⟩

/-- The decoded instruction's first byte is the byte at pc. -/
theorem opcode_of_decodeLatches {i : Instr} (hd : decodeLatches s.latched = .ok i) : i.opcode = s.mem.read s.pc.toNat :=
  opcode_of_decode hd

end Step

/-! ## Rules of the whole machine -/

/-- Settles O10: the fetch writes the latches and nothing after it does. -/
theorem latchesHoldTheFetchedBytes : Obligations.LatchesHoldTheFetchedBytes := by
  unfold Obligations.LatchesHoldTheFetchedBytes
  intro s t hpc h
  obtain ⟨-, hk⟩ := step_kind h
  cases hk with
  | fetchFault hge => omega
  | unsupported _ e _ ht => subst ht; exact ⟨rfl, rfl, rfl⟩
  | instr _ i _ hx => exact exec_latches hx

/-- Settles O34, from `exec_fl`. -/
theorem onlyCmpChangesFlags : Obligations.OnlyCmpChangesFlags := by
  unfold Obligations.OnlyCmpChangesFlags
  intro s t h hne
  obtain ⟨-, hk⟩ := step_kind h
  cases hk with
  | fetchFault _ ht => subst ht; exact absurd rfl hne
  | unsupported _ e _ ht => subst ht; exact absurd rfl hne
  | instr hpc i hd hx =>
    obtain ⟨a, b, _, _, rfl, -⟩ := (exec_fl hx).resolve_left hne
    exact ⟨hpc, (opcode_of_decodeLatches hd).symm⟩

/-- Settles O36, from `exec_out`; the decoder gives PRN the byte after pc. -/
theorem onlyPrnEmits : Obligations.OnlyPrnEmits := by
  unfold Obligations.OnlyPrnEmits
  intro s t h hne
  obtain ⟨-, hk⟩ := step_kind h
  cases hk with
  | fetchFault _ ht => subst ht; exact absurd rfl hne
  | unsupported _ e _ ht => subst ht; exact absurd rfl hne
  | instr hpc i hd hx =>
    obtain ⟨a, ha, rfl, hout⟩ := (exec_out hx).resolve_left hne
    obtain rfl : a = s.mem.read (s.pc.toNat + 1) := operand_of_decode_prn hd
    exact ⟨hpc, (opcode_of_decodeLatches hd).symm, ha, hout⟩

/-- Settles O37: the other two kinds of step end Faulted, and HLT's byte is never one of them below 254. -/
theorem onlyHltHalts : Obligations.OnlyHltHalts := by
  unfold Obligations.OnlyHltHalts
  intro s t h
  obtain ⟨hs, hk⟩ := step_kind h
  cases hk with
  | fetchFault hge ht => exact iff_of_false (by simp [ht]) (fun ⟨hle, _⟩ => by omega)
  | unsupported hpc e hd ht =>
    have hne : s.mem.read s.pc.toNat ≠ opHLT := fun heq => by
      rw [decodeLatches, State.latched, heq, decode_opHLT] at hd
      cases hd
    exact iff_of_false (by simp [ht]) (fun ⟨_, hbyte⟩ => hne hbyte)
  | instr hpc i hd hx =>
    calc t.status = .halted ↔ i = .hlt := exec_halted_iff hx hs
      _ ↔ s.mem.read s.pc.toNat = opHLT := by rw [← opcode_of_decodeLatches hd, Instr.opcode_eq_opHLT]
      _ ↔ s.pc.toNat ≤ 253 ∧ s.mem.read s.pc.toNat = 0x01#8 := (and_iff_right hpc).symm

/-! ## The invariant -/

/-- A comparison leaves a legal FL (10_state.md R27). -/
theorem compareFlags_legal (x y : Byte) : flLegal (compareFlags x y) := by
  unfold compareFlags
  split
  · exact .inr (.inl rfl)
  · split
    · exact .inr (.inr (.inl rfl))
    · exact .inr (.inr (.inr rfl))

/-- The invariant of a Faulted state. -/
theorem State.Inv.of_faulted {t : State} (hm : t.mem.wf = true) (hf : flLegal t.fl) (hpc : t.pc.toNat ≤ 257)
    (hst : t.status = .faulted) (hrec : t.faultRecord.isSome = true) : t.Inv :=
  ⟨hm, hf, fun hne => absurd hst hne, hpc, iff_of_true hrec hst⟩

section Invariant

variable {s t : State}

/-- The fetch keeps the invariant of a Running state. -/
theorem State.Inv.latched (hs : s.Inv) : s.latched.Inv := ⟨hs.mem_wf, hs.fl_legal, hs.pc_range, hs.pc_fault_range, hs.record_iff⟩

/-- An instruction at an address where a fetch passes leaves pc at most 256 (10_state.md R24). -/
theorem exec_pc_le {i : Instr} (hpc : s.pc.toNat ≤ 253) (h : exec i s = .next t) : t.pc.toNat ≤ 256 := by
  rcases exec_pc h with ht | ⟨a, ha, -, ht⟩
  · have hn := i.operandCount_opcode_le
    rw [ht, preAdvance_pc_toNat hpc]
    omega
  · have hv := (s.reg ⟨a.toNat, ha⟩).isLt
    rw [ht, BitVec.toNat_setWidth_of_le (by decide)]
    omega

/-- An instruction keeps the invariant of a Running state whose fetch passed. -/
theorem exec_keeps_inv {i : Instr} (hinv : s.Inv) (hs : s.status = .running) (hpc : s.pc.toNat ≤ 253)
    (h : exec i s = .next t) : t.Inv where
  mem_wf := by
    rcases exec_mem h with hm | ⟨_, v, -, -, hm⟩
    · rw [hm]; exact hinv.mem_wf
    · rw [hm]; exact Memory.wf_write hinv.mem_wf s.pushAddress.isLt v
  fl_legal := by
    rcases exec_fl h with hf | ⟨_, _, x, y, -, hf⟩
    · rw [hf]; exact hinv.fl_legal
    · rw [hf]; exact compareFlags_legal x y
  pc_range := fun _ => exec_pc_le hpc h
  pc_fault_range := (exec_pc_le hpc h).trans (by decide)
  record_iff := by
    have hnone : s.faultRecord = none := by simpa [hs] using hinv.record_iff
    rcases exec_status h with ⟨e, rfl⟩ | ⟨hrec, hst | ⟨-, hst⟩⟩
    · simp
    · simp [hrec, hnone, hst, hs]
    · simp [hrec, hnone, hst]

/-- A byte that spells no instruction leaves pc at most 257 (log entry 3). -/
theorem unsupported_keeps_inv (hinv : s.Inv) (hpc : s.pc.toNat ≤ 253) (ir : Byte) (e : Raised) :
    (s.faultAfterFetch ir e).Inv := by
  refine .of_faulted hinv.mem_wf hinv.fl_legal ?_ rfl rfl
  have hn := operandCount_le ir
  have hadv : (s.faultAfterFetch ir e).pc.toNat = s.pc.toNat + 1 + operandCount ir := preAdvance_pc_toNat hpc ir
  omega

end Invariant

/-- Settles O38: by the three kinds of step. -/
theorem stepKeepsTheInvariant : Obligations.StepKeepsTheInvariant := by
  unfold Obligations.StepKeepsTheInvariant
  intro s t hinv h
  obtain ⟨hs, hk⟩ := step_kind h
  cases hk with
  | fetchFault _ ht => subst ht; exact .of_faulted hinv.mem_wf hinv.fl_legal hinv.pc_fault_range rfl rfl
  | unsupported hpc e _ ht => subst ht; exact unsupported_keeps_inv hinv.latched hpc _ _
  | instr hpc i _ hx => exact exec_keeps_inv hinv.latched hs hpc hx

/-- Settles O39: field by field. -/
theorem resetMeetsTheInvariant : Obligations.ResetMeetsTheInvariant :=
  ⟨rfl, .inl rfl, fun _ => by decide, by decide, by decide⟩

/-- Settles O46: the registers one by one, the other fields as `State.reset` writes them. -/
theorem resetGivesTheResetValues : Obligations.ResetGivesTheResetValues := by
  unfold Obligations.ResetGivesTheResetValues
  intro s
  have hregs : ∀ r : RegIndex, State.reset.reg r = if r = 7 then 0xF4#8 else 0#8 := by decide
  exact ⟨hregs, rfl, rfl, Memory.read_nil, rfl, rfl, rfl⟩

/-! ## What the machine does not read

The latches never reach a step's answer, because the fetch writes them first. For FL and the output stream, a body started in a
perturbed state answers the perturbed state. -/

open Claims

/-- The state with other latches. -/
def State.withLatches (s : State) (x y z : Byte) : State := { s with ir := x, opA := y, opB := z }

theorem agreeButLatches_iff {s t : State} : agreeButLatches s t ↔ ∃ x y z, t = s.withLatches x y z :=
  ⟨fun h => ⟨t.ir, t.opA, t.opB, Eq.symm h⟩, fun ⟨_, _, _, h⟩ => h ▸ rfl⟩

/-- One step of two states that agree on all but the latches. -/
theorem step_agreeButLatches {s s' t : State} (hag : agreeButLatches s s') (h : step s = .next t) :
    ∃ t', step s' = .next t' ∧ agreeButLatches t t' := by
  obtain ⟨x, y, z, rfl⟩ := agreeButLatches_iff.1 hag
  obtain ⟨hs, hk⟩ := step_kind h
  cases hk with
  | fetchFault hpc ht => subst ht; exact ⟨_, step_of_254_le (s := s.withLatches x y z) hs hpc, rfl⟩
  | unsupported hpc e hd ht => subst ht; exact ⟨_, step_of_decode_error (s := s.withLatches x y z) hs hpc hd, rfl⟩
  | instr hpc i hd hx => exact ⟨t, (step_of_decode_ok (s := s.withLatches x y z) hs hpc hd).trans hx, rfl⟩

/-- A run of n + 1 steps is a step and a run of n. -/
theorem core_run_succ {n : Nat} {s t : State} :
    Sys2Proof.core.run (n + 1) s = .next t ↔ ∃ u, step s = .next u ∧ Sys2Proof.core.run n u = .next t := by
  have hcore : Sys2Proof.core.step s = step s := rfl
  cases hst : step s <;> simp [Host.Core.run, hcore, hst]

/-- Settles O41: by induction on the number of steps, `step_agreeButLatches` for each. -/
theorem latchesNeverMatterToARun : Obligations.LatchesNeverMatterToARun := by
  unfold Obligations.LatchesNeverMatterToARun
  intro n
  induction n with
  | zero =>
    intro s s' t hag h
    cases h
    exact ⟨s', rfl, hag⟩
  | succ n ih =>
    intro s s' t hag h
    obtain ⟨u, hu, hrun⟩ := core_run_succ.1 h
    obtain ⟨u', hu', hag'⟩ := step_agreeButLatches hag hu
    obtain ⟨t', hrun', ht'⟩ := ih u u' t hag' hrun
    exact ⟨t', core_run_succ.2 ⟨u', hu', hrun'⟩, ht'⟩

/-- The state with another FL and with bytes put before its output stream. -/
def State.perturb (s : State) (f : Byte) (o : List Byte) : State := { s with fl := f, out := o ++ s.out }

section PerturbReads
variable (s : State) (f : Byte) (o : List Byte)
@[simp] theorem State.perturb_reg (r : RegIndex) : (s.perturb f o).reg r = s.reg r := rfl
@[simp] theorem State.perturb_sp : (s.perturb f o).sp = s.sp := rfl
@[simp] theorem State.perturb_pushAddress : (s.perturb f o).pushAddress = s.pushAddress := rfl
@[simp] theorem State.perturb_popAddress : (s.perturb f o).popAddress = s.popAddress := rfl
end PerturbReads

/-- The FL an instruction that answers `t` leaves where it was started with FL `f`: CMP overwrites it, the others keep it. -/
def flAfter (i : Instr) (f : Byte) (t : State) : Byte :=
  match i with
  | .cmp _ _ => t.fl
  | _ => f

/-- Two register checks of the same operand answer alike, up to `g`, when their continuations do. -/
theorem withReg_map {v : RegOperand} {k k' : RegIndex → Except Raised State} {g : State → State}
    (h : ∀ r, k' r = (k r).map g) : withReg v k' = (withReg v k).map g := by
  unfold withReg
  split
  · exact h _
  · rfl

theorem withRegs_map {a b : RegOperand} {k k' : RegIndex → RegIndex → Except Raised State} {g : State → State}
    (h : ∀ ra rb, k' ra rb = (k ra rb).map g) : withRegs a b k' = (withRegs a b k).map g :=
  withReg_map fun ra => withReg_map fun rb => h ra rb

/-- The jumps whose test reads of FL at most EQ. -/
theorem jumpBody_perturb {taken : State → Bool} {p : State} {f : Byte} {o : List Byte} (a : RegOperand)
    (h : taken (p.perturb f o) = taken p) :
    jumpBody taken a (p.perturb f o) = (jumpBody taken a p).map (fun t => t.perturb f o) := by
  refine withReg_map fun ra => ?_
  rw [h]
  cases taken p <;> rfl

/-- A body reads neither the output stream nor more of FL than EQ (10_state.md R25, R31). -/
theorem bodyOf_perturb (i : Instr) {p : State} {f : Byte} (hf : f.getLsbD 7 = p.fl.getLsbD 7) (o : List Byte) :
    bodyOf i (p.perturb f o) = (bodyOf i p).map (fun t => t.perturb (flAfter i f t) o) := by
  have hEQ : (p.perturb f o).flagEQ = p.flagEQ := hf
  cases i with
  | hlt => rfl
  | ldi a imm => exact withReg_map fun _ => rfl
  | prn a =>
    refine withReg_map fun ra => congrArg Except.ok ?_
    simp [State.perturb, State.emit, State.reg, flAfter]
  | add a b => exact withRegs_map fun _ _ => rfl
  | mul a b => exact withRegs_map fun _ _ => rfl
  | and a b => exact withRegs_map fun _ _ => rfl
  | cmp a b => exact withRegs_map fun _ _ => rfl
  | div a b =>
    refine withRegs_map fun ra rb => ?_
    by_cases hz : p.reg rb = 0
    · simp only [State.perturb_reg, hz, if_true]; rfl
    · simp only [State.perturb_reg, hz, if_false]; rfl
  | push a =>
    refine withReg_map fun ra => ?_
    have hwrite := fun v q => memWrite_of_lt (p.pushAddress.isLt : p.pushAddress.toNat < 256) v q
    by_cases hz : p.sp = 0
    · simp only [State.perturb_sp, hz, if_true]; rfl
    · simp only [State.perturb_sp, State.perturb_pushAddress, hz, if_false, hwrite]; rfl
  | pop a =>
    refine withReg_map fun ra => ?_
    have hread := fun q => memRead_of_lt (p.popAddress.isLt : p.popAddress.toNat < 256) q
    by_cases hlim : stackLimit ≤ p.sp.toNat
    · simp only [State.perturb_sp, hlim, if_true]; rfl
    · simp only [State.perturb_sp, State.perturb_popAddress, hlim, if_false, hread]; rfl
  | jmp a => exact jumpBody_perturb (taken := fun _ => true) a rfl
  | jeq a => exact jumpBody_perturb (taken := fun p => p.flagEQ) a hEQ
  | jne a => exact jumpBody_perturb (taken := fun p => !p.flagEQ) a (congrArg (!·) hEQ)

/-- What CMP leaves in FL it leaves from any FL, and the others keep the FL they find. -/
theorem flAfter_eq {i : Instr} {s t : State} (f : Byte) (h : exec i s = .next t) :
    flAfter i f t = t.fl ∨ flAfter i f t = f ∧ t.fl = s.fl := by
  rcases exec_fl h with hfl | ⟨a, b, _, _, rfl, -⟩
  · cases i with
    | cmp a b => exact .inl rfl
    | _ => exact .inr ⟨rfl, hfl⟩
  · exact .inl rfl

section Perturb

variable {s t : State} {f : Byte}

theorem exec_perturb {i : Instr} (hf : f.getLsbD 7 = s.fl.getLsbD 7) (o : List Byte) (h : exec i s = .next t) :
    ∃ f', exec i (s.perturb f o) = .next (t.perturb f' o) ∧ (f' = t.fl ∨ f' = f ∧ t.fl = s.fl) := by
  have hbody := bodyOf_perturb i (p := s.preAdvance i.opcode) hf o
  rw [exec_eq_runBody]
  rcases exec_cases h with hok | ⟨e, herr, rfl⟩
  · rw [hok] at hbody
    exact ⟨_, runBody_of_ok hbody, flAfter_eq f h⟩
  · rw [herr] at hbody
    exact ⟨f, runBody_of_error hbody, .inr ⟨rfl, rfl⟩⟩

/-- A step from a perturbed state answers the perturbed answer, with the FL it wrote or the one it found. -/
theorem step_perturb (hf : f.getLsbD 7 = s.fl.getLsbD 7) (o : List Byte) (h : step s = .next t) :
    ∃ f', step (s.perturb f o) = .next (t.perturb f' o) ∧ (f' = t.fl ∨ f' = f ∧ t.fl = s.fl) := by
  obtain ⟨hs, hk⟩ := step_kind h
  cases hk with
  | fetchFault hpc ht =>
    subst ht
    exact ⟨f, step_of_254_le (s := s.perturb f o) hs hpc, .inr ⟨rfl, rfl⟩⟩
  | unsupported hpc e hd ht =>
    subst ht
    exact ⟨f, step_of_decode_error (s := s.perturb f o) hs hpc hd, .inr ⟨rfl, rfl⟩⟩
  | instr hpc i hd hx =>
    obtain ⟨f', hx', hf'⟩ := exec_perturb (s := s.latched) hf o hx
    exact ⟨f', (step_of_decode_ok (s := s.perturb f o) hs hpc hd).trans hx', hf'⟩

/-- Bytes put before the output stream stay before it, and change nothing else. -/
theorem step_prependOut (o : List Byte) (h : step s = .next t) :
    step { s with out := o ++ s.out } = .next { t with out := o ++ t.out } := by
  obtain ⟨f', hstep, hf'⟩ := step_perturb (f := s.fl) rfl o h
  obtain rfl : f' = t.fl := hf'.elim id fun ⟨hkept, hfl⟩ => hkept.trans hfl.symm
  exact hstep

/-- A step emits at most one byte. -/
theorem step_out (h : step s = .next t) : t.out = s.out ∨ ∃ v, t.out = s.out ++ [v] := by
  obtain ⟨-, hk⟩ := step_kind h
  cases hk with
  | fetchFault _ ht => subst ht; exact .inl rfl
  | unsupported _ e _ ht => subst ht; exact .inl rfl
  | instr _ i _ hx => exact (exec_out hx).imp id fun ⟨_, _, _, hout⟩ => ⟨_, hout⟩

end Perturb

/-- Settles O42: the step from `s` with an empty stream answers some `u`, and both steps of the statement are that one with
bytes put before the stream. -/
theorem outputIsNeverRead : Obligations.OutputIsNeverRead := by
  unfold Obligations.OutputIsNeverRead
  intro s t o h
  obtain ⟨hs, -⟩ := step_kind h
  obtain ⟨u, hu⟩ := step_next (s := { s with out := [] }) hs
  have hprepend : ∀ o' : List Byte, step { s with out := o' } = .next { u with out := o' ++ u.out } := fun o' => by
    simpa using step_prependOut o' hu
  obtain rfl : t = { u with out := s.out ++ u.out } := by
    have hsame : step s = .next { u with out := s.out ++ u.out } := hprepend s.out
    rw [h] at hsame
    cases hsame
    rfl
  have hlen : u.out.length ≤ 1 := by
    rcases step_out hu with hout | ⟨v, hout⟩ <;> simp [hout]
  exact ⟨u.out, rfl, hlen, hprepend o⟩

/-- Settles O43, from `step_perturb` with nothing put before the output stream. -/
theorem onlyEqualFlagIsRead : Obligations.OnlyEqualFlagIsRead := by
  unfold Obligations.OnlyEqualFlagIsRead
  intro s t f hf h
  obtain ⟨f', hstep, hf'⟩ := step_perturb hf [] h
  exact ⟨t.perturb f' [], hstep, rfl, hf'⟩

end Machine
end Sys2Proof

/-! ## Memory: who writes it, and the accessors -/

namespace Sys2Proof
namespace Machine

/-- Where PUSH does not overflow, its address is the number SP - 1, without wrapping (42_control_and_stack.md R122). -/
theorem State.pushAddress_toNat {s : State} (hsp : s.sp ≠ 0) : s.pushAddress.toNat = s.sp.toNat - 1 := by
  have hle : (1 : Byte) ≤ s.sp := by bv_omega
  exact BitVec.toNat_sub_of_le hle

/-- Settles O35, from `exec_mem`: the other kinds of step keep memory, and PUSH's write changes no read but at its address. -/
theorem onlyPushChangesMemory : Obligations.OnlyPushChangesMemory := by
  unfold Obligations.OnlyPushChangesMemory
  intro s t addr h hne
  obtain ⟨-, hk⟩ := step_kind h
  cases hk with
  | fetchFault _ ht => subst ht; exact absurd rfl hne
  | unsupported _ e _ ht => subst ht; exact absurd rfl hne
  | instr hpc i hd hx =>
    obtain ⟨a, v, rfl, hsp, hmem⟩ := (exec_mem hx).resolve_left fun hsame => hne (by rw [hsame]; rfl)
    have haddr : addr = s.pushAddress.toNat := by
      by_contra hother
      exact hne (by rw [hmem, Memory.read_write]; exact if_neg hother)
    exact ⟨hpc, (opcode_of_decodeLatches hd).symm, hsp, haddr.trans (State.pushAddress_toNat hsp)⟩

/-- Through the accessors, a write inside memory is read back at its address and seen nowhere else (20_memory.md R42, R43). -/
theorem memRead_mem_write {addr : Nat} (haddr : addr < 256) (v : Byte) (s : State) (b : Nat) :
    memRead b { s with mem := s.mem.write addr v } = if b = addr then .ok v else memRead b s := by
  by_cases hb : b < 256
  · rw [memRead_of_lt hb, memRead_of_lt hb, Memory.read_write]
    exact apply_ite Except.ok ..
  · have hne : b ≠ addr := by omega
    rw [memRead_of_ge (Nat.not_lt.1 hb), memRead_of_ge (Nat.not_lt.1 hb), if_neg hne]

/-- Settles O45: inside memory by `memRead_mem_write`, outside by the bounds check of both accessors. -/
theorem accessorsStoreOneByteAndCheckBounds : Obligations.AccessorsStoreOneByteAndCheckBounds := by
  unfold Obligations.AccessorsStoreOneByteAndCheckBounds
  intro addr v s
  constructor
  · intro hle
    have hlt : addr < 256 := Nat.lt_succ_of_le hle
    exact ⟨memRead_of_lt hlt s, _, memWrite_of_lt hlt v s, rfl, memRead_mem_write hlt v s⟩
  · intro hge
    exact ⟨memRead_of_ge hge s, memWrite_of_ge hge v s⟩

end Machine
end Sys2Proof

/-! ## Decoder and encoder -/

namespace Sys2Proof

/-- The instruction with `a` and `b` as its operand bytes, those it does not own dropped (30_encoding.md R62, R71). -/
def Instr.withOperands (a b : Byte) : Instr → Instr
  | .hlt => .hlt
  | .ldi _ _ => .ldi a b
  | .prn _ => .prn a
  | .add _ _ => .add a b
  | .mul _ _ => .mul a b
  | .div _ _ => .div a b
  | .cmp _ _ => .cmp a b
  | .and _ _ => .and a b
  | .push _ => .push a
  | .pop _ => .pop a
  | .jmp _ => .jmp a
  | .jeq _ => .jeq a
  | .jne _ => .jne a

/-- The decoder inverts the opcode map: the first byte picks the instruction, the other two are its operands (30_encoding.md
R67). -/
theorem decode_opcode (i : Instr) (a b : Byte) : decode i.opcode a b = .ok (i.withOperands a b) := by
  cases i <;> simp [Instr.opcode, Instr.withOperands, decode, isAlu, decodeAlu, decodeHandler, opHLT, opLDI, opPRN, opADD, opMUL,
    opDIV, opCMP, opAND, opPUSH, opPOP, opJMP, opJEQ, opJNE]

/-- The bytes of an instruction are as many of its three fetched bytes as IR[7:6] says (30_encoding.md R61). -/
theorem encode_withOperands (i : Instr) (a b : Byte) :
    encode (i.withOperands a b) = [i.opcode, a, b].take (1 + operandCount i.opcode) := by
  cases i <;> simp [Instr.withOperands, Instr.opcode, encode]

/-- Whatever follows them, the bytes of an instruction hold its operands after the first byte. -/
theorem Instr.withOperands_encode_append (i : Instr) (rest : List Byte) :
    i.withOperands ((encode i ++ rest).getD 1 0) ((encode i ++ rest).getD 2 0) = i := by
  cases i <;> rfl

theorem decodeBytes_encode_append (i : Instr) (rest : List Byte) : decodeBytes (encode i ++ rest) = .ok i := by
  have hfirst : (encode i ++ rest).getD 0 0 = i.opcode := by cases i <;> rfl
  rw [decodeBytes, hfirst, decode_opcode, i.withOperands_encode_append]

theorem encode_of_decode {ir a b : Byte} {i : Instr} (h : decode ir a b = .ok i) :
    encode i = [ir, a, b].take (1 + operandCount ir) := by
  obtain rfl := opcode_of_decode h
  have hi : i.withOperands a b = i := Except.ok.inj ((decode_opcode i a b).symm.trans h)
  rw [← encode_withOperands, hi]

/-- Settles O1: `decodeBytes_encode_append` one way, `encode_of_decode` the other. -/
theorem decodeAndEncodeAgree : Obligations.DecodeAndEncodeAgree := by
  unfold Obligations.DecodeAndEncodeAgree
  refine ⟨decodeBytes_encode_append, fun ir a b i h => ?_⟩
  rw [← operandCount_eq]
  exact encode_of_decode h

/-! The bytes that spell no instruction. -/

theorem decodeAlu_eq_error_iff {ir a b : Byte} {e : DecodeError} :
    decodeAlu ir a b = .error e ↔
      ir ∉ [opADD, opMUL, opDIV, opCMP, opAND] ∧ .unsupportedALUOperation ir = e := by
  unfold decodeAlu
  repeat' split
  all_goals simp [*]

theorem decodeHandler_eq_error_iff {ir a b : Byte} {e : DecodeError} :
    decodeHandler ir a b = .error e ↔
      ir ∉ [opHLT, opLDI, opPRN, opPUSH, opPOP, opJMP, opJEQ, opJNE] ∧ .unsupportedOpcode ir = e := by
  unfold decodeHandler
  repeat' split
  all_goals simp [*]

/-- What the decoder rejects: IR[5] says which opcodes the byte is not among, and the rejection names the byte
(30_encoding.md R69). -/
theorem decode_eq_error_iff {ir a b : Byte} {e : DecodeError} :
    decode ir a b = .error e ↔
      (isAlu ir = true ∧ ir ∉ [opADD, opMUL, opDIV, opCMP, opAND] ∧ .unsupportedALUOperation ir = e) ∨
      (isAlu ir = false ∧ ir ∉ [opHLT, opLDI, opPRN, opPUSH, opPOP, opJMP, opJEQ, opJNE] ∧ .unsupportedOpcode ir = e) := by
  by_cases halu : isAlu ir = true
  · rw [decode, if_pos halu, decodeAlu_eq_error_iff]
    simp [halu]
  · rw [decode, if_neg halu, decodeHandler_eq_error_iff]
    simp [halu]

theorem decode_eq_unsupportedALUOperation_iff (ir a b : Byte) :
    decode ir a b = .error (.unsupportedALUOperation ir) ↔
      isAlu ir = true ∧ ir ∉ [opADD, opMUL, opDIV, opCMP, opAND] := by
  simp [decode_eq_error_iff]

theorem decode_eq_unsupportedOpcode_iff (ir a b : Byte) :
    decode ir a b = .error (.unsupportedOpcode ir) ↔
      isAlu ir = false ∧ ir ∉ [opHLT, opLDI, opPRN, opPUSH, opPOP, opJMP, opJEQ, opJNE] := by
  simp [decode_eq_error_iff]

/-- A count over `m * k` numbers, taken in `m` blocks of `k`. -/
theorem countP_range_mul (p : Nat → Bool) (m k : Nat) :
    (List.range (m * k)).countP p = ((List.range m).map fun j => (List.range k).countP fun n => p (j * k + n)).sum := by
  induction m with
  | zero => simp
  | succ m ih => simp [Nat.succ_mul, List.range_add, List.range_succ, List.countP_map, Function.comp_def, ih]

/-- Settles O2, from `decode_eq_error_iff`; the 256 bytes are counted in eight blocks of 32. -/
theorem illegalBytesAreRejectedByName : Obligations.IllegalBytesAreRejectedByName := by
  unfold Obligations.IllegalBytesAreRejectedByName
  refine ⟨decode_eq_unsupportedALUOperation_iff, decode_eq_unsupportedOpcode_iff, fun ir a b e h => ?_, ?_, ?_⟩
  · exact (error_of_decode h).imp And.right And.right
  · rw [countP_range_mul _ 8 32]
    decide
  · rw [countP_range_mul _ 8 32]
    decide

/-- Settles O3: each word begins with the opcode of its instruction. -/
theorem writtenOutWordsDecode : Obligations.WrittenOutWordsDecode :=
  ⟨decode_opcode (.ldi 1 9) _ _, decode_opcode (.add 0 1) _ _, decode_opcode (.prn 3) _ _, decode_opcode .hlt _ _,
    decode_opcode (.push 2) _ _, decode_opcode (.jne 6) _ _⟩

theorem decode_of_encode_prefix {ir a b : Byte} {i : Instr} (h : encode i <+: [ir, a, b]) : decode ir a b = .ok i := by
  obtain ⟨rest, hrest⟩ := h
  have hd : decodeBytes [ir, a, b] = .ok i := hrest ▸ decodeBytes_encode_append i rest
  exact hd

/-- An instruction has at most three bytes (30_encoding.md R61). -/
theorem length_encode_le (i : Instr) : (encode i).length ≤ 3 := by
  rw [← operandCount_opcode]
  exact Nat.succ_le_succ i.operandCount_opcode_le

namespace Machine

/-- The bytes of an instruction that stand in memory from pc on begin the three bytes that a fetch reads. -/
theorem encode_prefix_of_read {s : State} {i : Instr}
    (h : ∀ k, (hk : k < (encode i).length) → s.mem.read (s.pc.toNat + k) = (encode i)[k]) :
    encode i <+: [s.mem.read s.pc.toNat, s.mem.read (s.pc.toNat + 1), s.mem.read (s.pc.toNat + 2)] := by
  change encode i <+: (List.range 3).map fun k => s.mem.read (s.pc.toNat + k)
  refine List.prefix_iff_getElem.2 ⟨by simpa using length_encode_le i, fun k hk => ?_⟩
  simpa using (h k hk).symm

/-- Settles O5: the fetched bytes begin with `encode i`, so they decode to `i`. -/
theorem stepRunsTheEncodedInstruction : Obligations.StepRunsTheEncodedInstruction := by
  unfold Obligations.StepRunsTheEncodedInstruction
  intro s i hs hpc h
  exact step_of_decode_ok hs hpc (decode_of_encode_prefix (encode_prefix_of_read h))

end Machine
end Sys2Proof

/-! ## The step, the pre-advance and the operand check (40_fetch_decode_execute.md) -/

namespace Sys2Proof
namespace Machine

/-! ### O9, O4 and O6: the step -/

/-- Settles O9: `step_next` one way, and the inversion `step_kind` the other. -/
theorem engineStepsExactlyWhileRunning : Obligations.EngineStepsExactlyWhileRunning := by
  unfold Obligations.EngineStepsExactlyWhileRunning
  intro s
  have hiff : (∃ t, step s = .next t) ↔ s.status = .running := by
    constructor
    · rintro ⟨t, h⟩
      obtain ⟨hs, -⟩ := step_kind h
      exact hs
    · exact step_next
  exact ⟨hiff, fun hs => by rw [step, hs], fun hs => by rw [step, hs]⟩

/-- Settles O4: the statement's `afterFetch` is the state a fetch that passed leaves. -/
theorem stepRunsTheDecodedInstruction : Obligations.StepRunsTheDecodedInstruction := by
  unfold Obligations.StepRunsTheDecodedInstruction
  intro s i hs hpc hd
  exact step_of_decode_ok hs hpc hd

/-- A step whose fetch fails ends in the state the fetch left. -/
theorem step_of_fetch_error {s t : State} (hs : s.status = .running) (hf : fetch s = .error t) : step s = .next t := by
  simp only [step, hs, hf]

/-- Settles O6: one fetch law for each of the three ranges of pc. -/
theorem fetchPastTheEndFaults : Obligations.FetchPastTheEndFaults := by
  unfold Obligations.FetchPastTheEndFaults
  intro s hs
  exact ⟨fun hpc => step_of_fetch_error hs (fetch_of_ge hpc), fun hpc => step_of_fetch_error hs (fetch_of_255 hpc),
    fun hpc => step_of_fetch_error hs (fetch_of_254 hpc)⟩

/-! ### O33: where pc goes -/

/-- The pre-advance moves pc past the instruction's bytes (40_fetch_decode_execute.md R84). -/
theorem preAdvance_opcode_pc (i : Instr) (s : State) :
    (s.preAdvance i.opcode).pc = s.pc + BitVec.ofNat 9 (encode i).length := by
  rw [State.preAdvance_pc, Laws.EncodingShape.length_eq, BitVec.ofNat_add, BitVec.add_assoc]
  rfl

/-- Settles O33, from `exec_pc`: a jump's target is a byte, so its zero extension keeps the number. -/
theorem pcAdvancesOrJumps : Obligations.PcAdvancesOrJumps := by
  unfold Obligations.PcAdvancesOrJumps
  intro i s t h
  rcases exec_pc h with hpc | ⟨a, ha, hjump, hpc⟩
  · exact .inl (hpc.trans (preAdvance_opcode_pc i s))
  · refine .inr ⟨a, ha, ?_, hjump⟩
    rw [hpc, BitVec.toNat_setWidth_of_le (by decide)]

/-! ### O25: the first register operand above 7 -/

/-- The first operand above 7: the one whose check fails (40_fetch_decode_execute.md R86). -/
def firstBadOperand (operands : List RegOperand) : Option RegOperand := operands.find? fun x => decide (8 ≤ x.toNat)

section OperandCheck

variable {a b v : RegOperand}

/-- The check of one operand fails on it. -/
theorem withReg_of_firstBadOperand (h : firstBadOperand [a] = some v) (k : RegIndex → Except Raised State) :
    withReg a k = .error (outOfBoundsRegister v) := by
  obtain ⟨hbad, rfl⟩ : 8 ≤ a.toNat ∧ a = v := by simpa [firstBadOperand] using h
  exact withReg_of_ge hbad k

/-- The check of two operands fails on the first that is bad. -/
theorem withRegs_of_firstBadOperand (h : firstBadOperand [a, b] = some v) (k : RegIndex → RegIndex → Except Raised State) :
    withRegs a b k = .error (outOfBoundsRegister v) := by
  by_cases ha : a.toNat < 8
  · have hb : firstBadOperand [b] = some v := by simpa [firstBadOperand, Nat.not_le.2 ha] using h
    rw [withRegs, withReg_of_lt ha]
    exact withReg_of_firstBadOperand hb _
  · obtain rfl : a = v := by simpa [firstBadOperand, Nat.not_lt.1 ha] using h
    exact withRegs_of_ge_left (Nat.not_lt.1 ha) k

/-- Every body checks its register operands before anything else it does (60_exceptions.md R157). -/
theorem bodyOf_of_firstBadOperand {i : Instr} (h : firstBadOperand i.registerOperands = some v) (p : State) :
    bodyOf i p = .error (outOfBoundsRegister v) := by
  cases i with
  | hlt => cases h
  | ldi | prn | push | pop | jmp | jeq | jne => exact withReg_of_firstBadOperand h _
  | add | mul | div | cmp | and => exact withRegs_of_firstBadOperand h _

end OperandCheck

/-- Fault entry after the fetch is what the statements' `afterFault` writes out. -/
theorem faultAfterFetch_opcode (i : Instr) (s : State) (e : Raised) :
    s.faultAfterFetch i.opcode e = Claims.afterFault s (encode i).length i.opcode e.cause e.info := by
  rw [Claims.afterFault, ← preAdvance_opcode_pc]
  rfl

/-- Settles O25: the body raises OutOfBounds on that operand, and the frame turns it into the fault's state. -/
theorem firstBadRegisterOperandFaults : Obligations.FirstBadRegisterOperandFaults := by
  unfold Obligations.FirstBadRegisterOperandFaults
  intro i v s hv
  calc
    exec i s = runBody i (bodyOf i) s := exec_eq_runBody i s
    _ = .next (s.faultAfterFetch i.opcode (outOfBoundsRegister v)) := runBody_of_error (bodyOf_of_firstBadOperand hv _)
    _ = .next (Claims.afterFault s (encode i).length i.opcode .outOfBounds (.registerIndex v)) :=
      congrArg _ (faultAfterFetch_opcode i s _)

end Machine
end Sys2Proof

/-! ## The ALU (41_alu.md) -/

namespace Sys2Proof
namespace Machine

/-! ### O7: an unsupported byte -/

/-- Fault entry after the fetch is what the statements' `afterFault` writes out, for any byte, also one that spells no
instruction. -/
theorem faultAfterFetch_eq_afterFault (s : State) (ir : Byte) (e : Raised) :
    s.faultAfterFetch ir e = Claims.afterFault s (1 + ir.toNat / 64) ir e.cause e.info := by
  rw [Claims.afterFault, ← operandCount_eq, BitVec.ofNat_add, ← BitVec.add_assoc]
  rfl

/-- The step of a byte that the decoder rejects, in the words of the statements. -/
theorem step_of_decode_error_eq_afterFault {s : State} (hs : s.status = .running) (hpc : s.pc.toNat ≤ 253) {e : DecodeError}
    (hd : decodeLatches s.latched = .error e) :
    step s = .next (Claims.afterFault (Claims.afterFetch s) (1 + (s.mem.read s.pc.toNat).toNat / 64) (s.mem.read s.pc.toNat)
      (unsupportedByte e).cause (unsupportedByte e).info) :=
  (step_of_decode_error hs hpc hd).trans (congrArg _ (faultAfterFetch_eq_afterFault ..))

/-- Settles O7: the decoder rejects the byte, by `decode_eq_unsupportedALUOperation_iff`; the 256 bytes are counted in eight blocks
of 32. -/
theorem unsupportedALUByteFaults : Obligations.UnsupportedALUByteFaults := by
  unfold Obligations.UnsupportedALUByteFaults
  refine ⟨?_, fun s hs hpc halu hir => ?_⟩
  · rw [countP_range_mul _ 8 32]
    decide
  · have hd : decodeLatches s.latched = .error (.unsupportedALUOperation (s.mem.read s.pc.toNat)) :=
      (decode_eq_unsupportedALUOperation_iff _ _ _).2 ⟨halu, hir⟩
    exact step_of_decode_error_eq_afterFault hs hpc hd

/-! ### The frame around a body -/

/-- Where the body does not fault, its state is exec's. -/
theorem exec_of_body_ok {i : Instr} {s t : State} (h : bodyOf i (s.preAdvance i.opcode) = .ok t) : exec i s = .next t :=
  (exec_eq_runBody i s).trans (runBody_of_ok h)

/-- Where the body raises, exec ends in the fault's state, in the words of the statements. -/
theorem exec_of_body_error {i : Instr} {s : State} {e : Raised} (h : bodyOf i (s.preAdvance i.opcode) = .error e) :
    exec i s = .next (Claims.afterFault s (encode i).length i.opcode e.cause e.info) :=
  calc
    exec i s = .next (s.faultAfterFetch i.opcode e) := (exec_eq_runBody i s).trans (runBody_of_error h)
    _ = .next (Claims.afterFault s (encode i).length i.opcode e.cause e.info) := congrArg _ (faultAfterFetch_opcode i s e)

/-- A bad register operand of an instruction that has two: the first one that is bad is the fault's
(40_fetch_decode_execute.md R86). -/
theorem exec_of_bad_operand_of_two {i : Instr} {a b : RegOperand} (hi : i.registerOperands = [a, b]) (s : State) :
    (8 ≤ a.toNat →
      exec i s = .next (Claims.afterFault s (encode i).length i.opcode .outOfBounds (.registerIndex a))) ∧
    (a.toNat < 8 → 8 ≤ b.toNat →
      exec i s = .next (Claims.afterFault s (encode i).length i.opcode .outOfBounds (.registerIndex b))) := by
  refine ⟨fun ha => firstBadRegisterOperandFaults i a s ?_, fun ha hb => firstBadRegisterOperandFaults i b s ?_⟩
  · simp [hi, ha]
  · simp [hi, ha, hb]

/-! ### The bodies after the pre-advance, when both operands name registers -/

section Bodies

variable {a b : RegOperand} (ha : a.toNat < 8) (hb : b.toNat < 8) (s : State) (ir : Byte)

theorem binaryBody_preAdvance (f : Byte → Byte → Byte) :
    binaryBody f a b (s.preAdvance ir) =
      .ok ((s.preAdvance ir).setReg ⟨a.toNat, ha⟩ (f (s.reg ⟨a.toNat, ha⟩) (s.reg ⟨b.toNat, hb⟩))) := by
  simp only [binaryBody, withRegs_of_lt ha hb, State.preAdvance_reg]

theorem cmpBody_preAdvance :
    cmpBody a b (s.preAdvance ir) =
      .ok ((s.preAdvance ir).setFl (compareFlags (s.reg ⟨a.toNat, ha⟩) (s.reg ⟨b.toNat, hb⟩))) := by
  simp only [cmpBody, withRegs_of_lt ha hb, State.preAdvance_reg]

theorem divBody_preAdvance_of_ne_zero (hz : s.reg ⟨b.toNat, hb⟩ ≠ 0) :
    divBody a b (s.preAdvance ir) =
      .ok ((s.preAdvance ir).setReg ⟨a.toNat, ha⟩ (divResult (s.reg ⟨a.toNat, ha⟩) (s.reg ⟨b.toNat, hb⟩))) := by
  rw [divBody, withRegs_of_lt ha hb]
  exact if_neg hz

include ha in
theorem divBody_preAdvance_of_zero (hz : s.reg ⟨b.toNat, hb⟩ = 0) :
    divBody a b (s.preAdvance ir) = .error (divisionByZero ⟨b.toNat, hb⟩) := by
  rw [divBody, withRegs_of_lt ha hb]
  exact if_pos hz

end Bodies

/-- The pre-advance of an instruction of three bytes (30_encoding.md R62, format F2). -/
theorem preAdvance_opcode_of_length_three {i : Instr} (hlen : (encode i).length = 3) (s : State) :
    s.preAdvance i.opcode = { s with pc := s.pc + 3 } :=
  preAdvance_of_two (Nat.succ.inj ((operandCount_opcode i).trans hlen)) s

/-- An instruction of three bytes with ADD's, MUL's and AND's body: the destination and pc change, nothing else. -/
theorem exec_of_binaryBody {i : Instr} {f : Byte → Byte → Byte} {a b : RegOperand} (hlen : (encode i).length = 3)
    (hbody : bodyOf i = binaryBody f a b) (ha : a.toNat < 8) (hb : b.toNat < 8) (s : State) :
    exec i s = .next { s with
      pc := s.pc + 3, regs := s.regs.set a.toNat (f (s.reg ⟨a.toNat, ha⟩) (s.reg ⟨b.toNat, hb⟩)) ha } := by
  rw [exec_of_body_ok (hbody ▸ binaryBody_preAdvance ha hb s i.opcode f), preAdvance_opcode_of_length_three hlen]
  rfl

/-! ### The values -/

theorem addResult_toNat (x y : Byte) : (addResult x y).toNat = (x.toNat + y.toNat) % 256 := BitVec.toNat_ofNat _ _

theorem mulResult_toNat (x y : Byte) : (mulResult x y).toNat = (x.toNat * y.toNat) % 256 := BitVec.toNat_ofNat _ _

/-- The quotient is at most the dividend, so it is a byte (41_alu.md R104). -/
theorem divResult_toNat (x y : Byte) : (divResult x y).toNat = x.toNat / y.toNat := by
  have hlt : x.toNat / y.toNat < 2 ^ 8 := Nat.lt_of_le_of_lt (Nat.div_le_self _ _) x.isLt
  exact (BitVec.toNat_ofNat _ _).trans (Nat.mod_eq_of_lt hlt)

theorem andResult_getLsbD (x y : Byte) (i : Nat) : (andResult x y).getLsbD i = (x.getLsbD i && y.getLsbD i) :=
  BitVec.getLsbD_and

/-- One flag for each way two bytes can compare (41_alu.md R100). -/
theorem compareFlags_cases (x y : Byte) :
    compareFlags x y = flLT ∧ x.toNat < y.toNat ∨ compareFlags x y = flGT ∧ y.toNat < x.toNat ∨
      compareFlags x y = flEQ ∧ x.toNat = y.toNat := by
  unfold compareFlags
  rcases Nat.lt_trichotomy x.toNat y.toNat with hlt | heq | hgt
  · exact .inl ⟨if_pos hlt, hlt⟩
  · exact .inr (.inr ⟨by simp [heq], heq⟩)
  · exact .inr (.inl ⟨by simp [hgt, hgt.le.not_gt], hgt⟩)

/-! ### O13 to O17: what each instruction does -/

/-- Settles O13: the value is `addResult`'s, the faults are the operand checks'. -/
theorem addWrapsModulo256 : Obligations.AddWrapsModulo256 := by
  unfold Obligations.AddWrapsModulo256
  intro a b s
  refine ⟨rfl, fun ha hb => ⟨_, addResult_toNat _ _, exec_of_binaryBody rfl rfl ha hb s⟩,
    exec_of_bad_operand_of_two (i := .add a b) rfl s⟩

/-- Settles O14: the value is `mulResult`'s, the faults are the operand checks'. -/
theorem mulKeepsTheLowByte : Obligations.MulKeepsTheLowByte := by
  unfold Obligations.MulKeepsTheLowByte
  intro a b s
  refine ⟨rfl, fun ha hb => ⟨_, mulResult_toNat _ _, exec_of_binaryBody rfl rfl ha hb s⟩,
    exec_of_bad_operand_of_two (i := .mul a b) rfl s⟩

/-- Settles O15: the value is `andResult`'s, the faults are the operand checks'. -/
theorem andIsBitwise : Obligations.AndIsBitwise := by
  unfold Obligations.AndIsBitwise
  intro a b s
  refine ⟨rfl, fun ha hb => ⟨_, andResult_getLsbD _ _, exec_of_binaryBody rfl rfl ha hb s⟩,
    exec_of_bad_operand_of_two (i := .and a b) rfl s⟩

/-- Settles O16: the value is `divResult`'s, and a divisor 0 makes the body raise. -/
theorem divTruncatesAndFaultsOnZero : Obligations.DivTruncatesAndFaultsOnZero := by
  unfold Obligations.DivTruncatesAndFaultsOnZero
  intro a b s
  refine ⟨rfl, fun ha hb hz => ⟨_, divResult_toNat _ _, ?_⟩, fun ha hb hz => ?_,
    exec_of_bad_operand_of_two (i := .div a b) rfl s⟩
  · rw [exec_of_body_ok (i := .div a b) (divBody_preAdvance_of_ne_zero ha hb s _ hz), preAdvance_opcode_of_length_three rfl]
    rfl
  · exact exec_of_body_error (i := .div a b) (e := divisionByZero ⟨b.toNat, hb⟩) (divBody_preAdvance_of_zero ha hb s _ hz)

/-- Settles O17: `compareFlags_cases` is the trichotomy; FL as it was is not in the value. -/
theorem cmpSetsExactlyOneFlag : Obligations.CmpSetsExactlyOneFlag := by
  unfold Obligations.CmpSetsExactlyOneFlag
  intro a b s
  refine ⟨rfl, fun ha hb => ⟨_, compareFlags_cases _ _, ?_⟩, exec_of_bad_operand_of_two (i := .cmp a b) rfl s⟩
  rw [exec_of_body_ok (i := .cmp a b) (cmpBody_preAdvance ha hb s _), preAdvance_opcode_of_length_three rfl]
  rfl

end Machine
end Sys2Proof

/-! ## Control and stack (42_control_and_stack.md) -/

namespace Sys2Proof
namespace Machine

/-! ### O8: an unsupported handler byte -/

/-- Settles O8: the decoder rejects the byte, by `decode_eq_unsupportedOpcode_iff`; the 256 bytes are counted in eight blocks of
32. -/
theorem unsupportedHandlerByteFaults : Obligations.UnsupportedHandlerByteFaults := by
  unfold Obligations.UnsupportedHandlerByteFaults
  refine ⟨?_, fun s hs hpc hhandler hir => ?_⟩
  · rw [countP_range_mul _ 8 32]
    decide
  · have hd : decodeLatches s.latched = .error (.unsupportedOpcode (s.mem.read s.pc.toNat)) :=
      (decode_eq_unsupportedOpcode_iff _ _ _).2 ⟨hhandler, hir⟩
    exact step_of_decode_error_eq_afterFault hs hpc hd

/-! ### Instructions with one register operand -/

/-- The pre-advance of an instruction of two bytes (30_encoding.md R62, format F1). -/
theorem preAdvance_opcode_of_length_two {i : Instr} (hlen : (encode i).length = 2) (s : State) :
    s.preAdvance i.opcode = { s with pc := s.pc + 2 } :=
  preAdvance_of_one (Nat.succ.inj ((operandCount_opcode i).trans hlen)) s

/-- A bad register operand of an instruction that has one (40_fetch_decode_execute.md R86). -/
theorem exec_of_bad_operand_of_one {i : Instr} {a : RegOperand} (hi : i.registerOperands = [a]) (s : State) (ha : 8 ≤ a.toNat) :
    exec i s = .next (Claims.afterFault s (encode i).length i.opcode .outOfBounds (.registerIndex a)) :=
  firstBadRegisterOperandFaults i a s (by simp [hi, ha])

/-! ### O11 and O12: LDI and PRN -/

/-- Settles O11: the destination gets the immediate. -/
theorem ldiLoadsItsImmediate : Obligations.LdiLoadsItsImmediate := by
  unfold Obligations.LdiLoadsItsImmediate
  intro a imm s
  refine ⟨rfl, fun ha => ?_, exec_of_bad_operand_of_one (i := .ldi a imm) rfl s⟩
  have hbody (p : State) : bodyOf (.ldi a imm) p = .ok (p.setReg ⟨a.toNat, ha⟩ imm) := withReg_of_lt ha _
  rw [exec_of_body_ok (hbody _), preAdvance_opcode_of_length_three rfl]
  rfl

/-- Settles O12: the register's value is appended to the output. -/
theorem prnEmitsItsRegister : Obligations.PrnEmitsItsRegister := by
  unfold Obligations.PrnEmitsItsRegister
  intro a s
  refine ⟨rfl, fun ha => ?_, exec_of_bad_operand_of_one (i := .prn a) rfl s⟩
  have hbody (p : State) : bodyOf (.prn a) p = .ok (p.emit (p.reg ⟨a.toNat, ha⟩)) := withReg_of_lt ha _
  rw [exec_of_body_ok (hbody _), preAdvance_opcode_of_length_two rfl]
  rfl

/-! ### O20 to O23: the jumps and HLT -/

/-- A jump whose operand names a register: `jumps`, the value of its condition, chooses between the register's value and the next
instruction, and nothing but pc changes (42_control_and_stack.md R124 to R126). -/
theorem exec_of_jumpBody {i : Instr} {taken : State → Bool} {a : RegOperand} (hlen : (encode i).length = 2)
    (hbody : bodyOf i = jumpBody taken a) (ha : a.toNat < 8) {s : State} {jumps : Bool}
    (htaken : taken (s.preAdvance i.opcode) = jumps) :
    exec i s = .next (if jumps then { s with pc := (s.reg ⟨a.toNat, ha⟩).setWidth 9 } else { s with pc := s.pc + 2 }) := by
  have hjump (p : State) : bodyOf i p = .ok (if taken p then p.jump (p.reg ⟨a.toNat, ha⟩) else p) := by
    rw [hbody, jumpBody, withReg_of_lt ha]
  rw [exec_of_body_ok (hjump _), htaken, preAdvance_opcode_of_length_two hlen]
  rfl

/-- Settles O20: the condition is EQ, which the pre-advance keeps. -/
theorem jeqJumpsWhenEqualIsSet : Obligations.JeqJumpsWhenEqualIsSet := by
  unfold Obligations.JeqJumpsWhenEqualIsSet
  intro a s
  exact ⟨rfl, fun ha hEQ => exec_of_jumpBody (i := .jeq a) rfl rfl ha hEQ,
    fun ha hEQ => exec_of_jumpBody (i := .jeq a) rfl rfl ha hEQ, exec_of_bad_operand_of_one (i := .jeq a) rfl s⟩

/-- Settles O21: the condition is the negation of EQ, which the pre-advance keeps. -/
theorem jneJumpsWhenEqualIsClear : Obligations.JneJumpsWhenEqualIsClear := by
  unfold Obligations.JneJumpsWhenEqualIsClear
  intro a s
  exact ⟨rfl, fun ha hEQ => exec_of_jumpBody (i := .jne a) rfl rfl ha (congrArg not hEQ),
    fun ha hEQ => exec_of_jumpBody (i := .jne a) rfl rfl ha (congrArg not hEQ),
    exec_of_bad_operand_of_one (i := .jne a) rfl s⟩

/-- Settles O22: the condition always holds. -/
theorem jmpGoesToItsRegister : Obligations.JmpGoesToItsRegister := by
  unfold Obligations.JmpGoesToItsRegister
  intro a s
  exact ⟨rfl, fun ha => exec_of_jumpBody (i := .jmp a) rfl rfl ha rfl, exec_of_bad_operand_of_one (i := .jmp a) rfl s⟩

theorem exec_hlt (s : State) : exec .hlt s = .next { s with pc := s.pc + 1, status := .halted } := by
  have hbody (p : State) : bodyOf .hlt p = .ok p.halt := rfl
  rw [exec_of_body_ok (hbody _), Instr.opcode, preAdvance_of_zero operandCount_opHLT]
  rfl

/-- Settles O23: `exec_hlt` after the fetch, which from 254 on fails whatever the byte. -/
theorem hltHalts : Obligations.HltHalts := by
  unfold Obligations.HltHalts
  refine ⟨rfl, exec_hlt, fun s hs hbyte => ⟨fun hpc => ?_, fun hpc => ?_⟩⟩
  · have hd : decodeLatches s.latched = .ok .hlt := by
      rw [decodeLatches, State.latched, hbyte]
      exact decode_opHLT _ _
    exact (step_of_decode_ok hs hpc hd).trans (exec_hlt _)
  · have hge : 254 ≤ s.pc.toNat := by omega
    exact ⟨s.fetchFault, _, step_of_254_le hs hge, s.fetchFault_status, s.fetchFault_faultRecord, rfl⟩

/-! ### O18, O19 and O44: the stack -/

/-- Of two writes to one register the second counts. -/
theorem State.setReg_setReg (s : State) (r : RegIndex) (v w : Byte) : (s.setReg r v).setReg r w = s.setReg r w :=
  congrArg (fun regs => { s with regs := regs }) (Vector.set_set ..)

/-- Writing a register with what it holds changes nothing. -/
theorem State.setReg_reg_self (s : State) (r : RegIndex) : s.setReg r (s.reg r) = s :=
  congrArg (fun regs => { s with regs := regs }) (Vector.set_getElem_self r.isLt)

/-- PUSH where it does not fault: the stored value is read after SP has moved. -/
theorem exec_push {a : RegOperand} (ha : a.toNat < 8) {s : State} (hsp : s.sp ≠ 0) :
    exec (.push a) s = .next { s.setSp (s.sp - 1) with
      pc := s.pc + 2
      mem := s.mem.write s.pushAddress.toNat ((s.setSp (s.sp - 1)).reg ⟨a.toNat, ha⟩) } := by
  rw [exec_of_body_ok (i := .push a) (pushBody_of_lt ha hsp), preAdvance_opcode_of_length_two rfl]
  rfl

/-- POP where it does not fault: SP is incremented after the destination has been written. -/
theorem exec_pop {a : RegOperand} (ha : a.toNat < 8) {s : State} (hsp : s.sp.toNat < 0xF4) :
    exec (.pop a) s = .next { (s.setReg ⟨a.toNat, ha⟩ (s.mem.read s.sp.toNat)).setSp
        ((s.setReg ⟨a.toNat, ha⟩ (s.mem.read s.sp.toNat)).sp + 1) with
      pc := s.pc + 2 } := by
  rw [exec_of_body_ok (i := .pop a) (popBody_of_lt ha hsp), preAdvance_opcode_of_length_two rfl]
  rfl

/-- Settles O18: `exec_push`, and a SP of 0 makes the body raise. -/
theorem pushStoresBelowTheStackPointer : Obligations.PushStoresBelowTheStackPointer := by
  unfold Obligations.PushStoresBelowTheStackPointer
  intro a s
  refine ⟨rfl, fun ha hsp => ⟨_, exec_push ha hsp, rfl, fun addr => ?_⟩, fun ha hsp => ?_,
    exec_of_bad_operand_of_one (i := .push a) rfl s⟩
  · calc
      _ = if addr = s.pushAddress.toNat then (s.setSp (s.sp - 1)).reg ⟨a.toNat, ha⟩ else s.mem.read addr :=
        Memory.read_write ..
      _ = _ := by simp [State.pushAddress_toNat hsp, Fin.ext_iff]
  · have hbody (p : State) (hp : p.sp = 0) : bodyOf (.push a) p = .error (stackOverflow 0) := by
      rw [bodyOf, pushBody, withReg_of_lt ha, if_pos hp, hp]
    exact exec_of_body_error (i := .push a) (hbody _ hsp)

/-- Settles O19: `exec_pop`, and a SP from 0xF4 on makes the body raise. -/
theorem popLoadsFromTheStackPointer : Obligations.PopLoadsFromTheStackPointer := by
  unfold Obligations.PopLoadsFromTheStackPointer
  intro a s
  refine ⟨rfl, fun ha hne hsp => ?_, fun heq hsp => ?_, fun ha hsp => ?_, exec_of_bad_operand_of_one (i := .pop a) rfl s⟩
  · rw [exec_pop ha hsp, State.setReg_sp, if_neg (by simpa [Fin.ext_iff] using hne)]
    rfl
  · have ha : a.toNat < 8 := by omega
    have hidx : (⟨a.toNat, ha⟩ : RegIndex) = 7 := Fin.ext heq
    rw [exec_pop ha hsp, hidx, State.setReg_sp, if_pos rfl, State.setSp, State.setReg_setReg]
    rfl
  · have hbody (p : State) (hp : stackLimit ≤ p.sp.toNat) : bodyOf (.pop a) p = .error (stackUnderflow p.sp) := by
      rw [bodyOf, popBody, withReg_of_lt ha, if_pos hp]
    exact exec_of_body_error (i := .pop a) (hbody _ hsp)

/-- PUSH leaves `x[a]` as it stands afterwards on top of the stack, also for R7. -/
theorem read_sp_of_exec_push {a : RegOperand} (ha : a.toNat < 8) {s t : State} (hsp : s.sp ≠ 0) (h : exec (.push a) s = .next t) :
    t.mem.read t.sp.toNat = t.reg ⟨a.toNat, ha⟩ := by
  rw [exec_push ha hsp] at h
  cases h
  have htop : (s.setSp (s.sp - 1)).sp = s.pushAddress := s.setSp_sp _
  exact (Memory.read_write ..).trans (if_pos (congrArg BitVec.toNat htop))

/-- POP of the register whose value is on top of the stack moves SP and pc only. -/
theorem exec_pop_of_read_sp {a : RegOperand} (ha : a.toNat < 8) {s : State} (hsp : s.sp.toNat < 0xF4)
    (htop : s.mem.read s.sp.toNat = s.reg ⟨a.toNat, ha⟩) :
    exec (.pop a) s = .next { s.setSp (s.sp + 1) with pc := s.pc + 2 } := by
  rw [exec_pop ha hsp, htop, State.setReg_reg_self]

/-- Settles O44: POP finds the register's own value on top of the stack, so only SP moves, down by 1 and up again. -/
theorem pushThenPopRestoresRegisters : Obligations.PushThenPopRestoresRegisters := by
  unfold Obligations.PushThenPopRestoresRegisters
  intro a s ha hsp hlimit
  have hpush := exec_push ha hsp
  have htop := read_sp_of_exec_push ha hsp hpush
  have hlt : (s.setSp (s.sp - 1)).sp.toNat < 0xF4 := by
    rw [State.setSp_sp]
    bv_omega
  have hsame : (s.setSp (s.sp - 1)).setSp ((s.setSp (s.sp - 1)).sp + 1) = s :=
    calc (s.setSp (s.sp - 1)).setSp ((s.setSp (s.sp - 1)).sp + 1)
      _ = (s.setSp (s.sp - 1)).setSp s.sp := by rw [State.setSp_sp, BitVec.sub_add_cancel]
      _ = s.setSp s.sp := s.setReg_setReg 7 _ _
      _ = s := s.setReg_reg_self 7
  have hregs := congrArg State.regs hsame
  exact ⟨_, _, hpush, exec_pop_of_read_sp ha hlt htop, hregs, BitVec.add_assoc ..⟩

end Machine
end Sys2Proof

/-! ## Exceptions (60_exceptions.md) -/

namespace Sys2Proof

/-- The fault of the instruction's own, after its register operands have passed (60_exceptions.md R151): a divisor 0, a PUSH at
SP = 0, a POP from 0xF4 on. -/
def Instr.ownFault (i : Instr) (s : Machine.State) : Prop :=
  match i with
  | .div _ b => ∃ hb : b.toNat < 8, s.reg ⟨b.toNat, hb⟩ = 0
  | .push _ => s.sp = 0
  | .pop _ => 0xF4 ≤ s.sp.toNat
  | _ => False

/-- `Instr.ownFault`, one disjunct for each instruction that has one. -/
theorem Instr.ownFault_iff {i : Instr} {s : Machine.State} :
    i.ownFault s ↔
      (∃ a b, ∃ hb : b.toNat < 8, i = .div a b ∧ s.reg ⟨b.toNat, hb⟩ = 0) ∨
      (∃ a, i = .push a ∧ s.sp = 0) ∨
      (∃ a, i = .pop a ∧ 0xF4 ≤ s.sp.toNat) := by
  cases i with
  | div a b =>
    constructor
    · rintro ⟨hb, hz⟩
      exact .inl ⟨a, b, hb, rfl, hz⟩
    · rintro (⟨_, _, hb, ⟨⟩, hz⟩ | ⟨_, ⟨⟩, _⟩ | ⟨_, ⟨⟩, _⟩)
      exact ⟨hb, hz⟩
  | _ => simp [Instr.ownFault]

/-- Ill formed means that the operand check finds a bad operand (30_encoding.md R63). -/
theorem Instr.wellFormed_eq_false_iff {i : Instr} :
    i.wellFormed = false ↔ ∃ v, Machine.firstBadOperand i.registerOperands = some v := by
  simp [Instr.wellFormed, namesRegister, Machine.firstBadOperand, ← Option.isSome_iff_exists]

namespace Machine

/-! ### O26: which instructions fault -/

theorem pushBody_of_zero {a : RegOperand} (ha : a.toNat < 8) {p : State} (hsp : p.sp = 0) :
    pushBody a p = .error (stackOverflow p.sp) := by
  rw [pushBody, withReg_of_lt ha, if_pos hsp]

theorem popBody_of_stackLimit_le {a : RegOperand} (ha : a.toNat < 8) {p : State} (hsp : stackLimit ≤ p.sp.toNat) :
    popBody a p = .error (stackUnderflow p.sp) := by
  rw [popBody, withReg_of_lt ha, if_pos hsp]

/-- Where the register operands pass, a body raises exactly its instruction's own fault. -/
theorem bodyOf_error_iff_ownFault {i : Instr} (hwf : i.wellFormed = true) (s : State) (ir : Byte) :
    (∃ e, bodyOf i (s.preAdvance ir) = .error e) ↔ i.ownFault s := by
  have hlt : ∀ v ∈ i.registerOperands, v.toNat < 8 := by simpa [Instr.wellFormed, namesRegister] using hwf
  cases i with
  | hlt => simp [bodyOf, Instr.ownFault]
  | ldi a | prn a | jmp a | jeq a | jne a =>
    have ha : a.toNat < 8 := hlt a (by simp [Instr.registerOperands])
    simp [bodyOf, ldiBody, prnBody, jumpBody, withReg_of_lt ha, Instr.ownFault]
  | add a b | mul a b | and a b | cmp a b =>
    obtain ⟨ha, hb⟩ : a.toNat < 8 ∧ b.toNat < 8 := by simpa [Instr.registerOperands] using hlt
    simp [bodyOf, binaryBody, cmpBody, withRegs_of_lt ha hb, Instr.ownFault]
  | div a b =>
    obtain ⟨ha, hb⟩ : a.toNat < 8 ∧ b.toNat < 8 := by simpa [Instr.registerOperands] using hlt
    by_cases hz : s.reg ⟨b.toNat, hb⟩ = 0
    · exact iff_of_true ⟨_, divBody_preAdvance_of_zero ha hb s ir hz⟩ ⟨hb, hz⟩
    · exact iff_of_false (by simp [bodyOf, divBody_preAdvance_of_ne_zero ha hb s ir hz]) fun ⟨_, hzero⟩ => hz hzero
  | push a =>
    have ha : a.toNat < 8 := hlt a (by simp [Instr.registerOperands])
    by_cases hsp : s.sp = 0
    · exact iff_of_true ⟨_, pushBody_of_zero ha hsp⟩ hsp
    · exact iff_of_false (by simp [bodyOf, pushBody_of_lt ha (p := s.preAdvance ir) hsp]) hsp
  | pop a =>
    have ha : a.toNat < 8 := hlt a (by simp [Instr.registerOperands])
    by_cases hsp : s.sp.toNat < 0xF4
    · exact iff_of_false (by simp [bodyOf, popBody_of_lt ha (p := s.preAdvance ir) hsp]) (Nat.not_le.2 hsp)
    · exact iff_of_true ⟨_, popBody_of_stackLimit_le ha (Nat.not_lt.1 hsp)⟩ (Nat.not_lt.1 hsp)

/-- A body raises on a register operand above 7 and on its instruction's own fault, and on nothing else. -/
theorem bodyOf_error_iff (i : Instr) (s : State) (ir : Byte) :
    (∃ e, bodyOf i (s.preAdvance ir) = .error e) ↔ i.wellFormed = false ∨ i.ownFault s := by
  cases hwf : i.wellFormed with
  | true => simpa using bodyOf_error_iff_ownFault hwf s ir
  | false =>
    obtain ⟨v, hv⟩ := Instr.wellFormed_eq_false_iff.1 hwf
    exact iff_of_true ⟨_, bodyOf_of_firstBadOperand hv _⟩ (.inl rfl)

/-- A body that does not raise enters no fault. -/
theorem BodyEffect.status_ne_faulted {p t : State} {i : Instr} (h : BodyEffect p i t) (hp : p.status ≠ .faulted) :
    t.status ≠ .faulted := by
  cases h with
  | hlt => simp
  | _ => exact hp

/-- From a state that is not Faulted, an instruction ends Faulted exactly when its body raises. -/
theorem exec_faulted_iff {i : Instr} {s t : State} (hs : s.status ≠ .faulted) (h : exec i s = .next t) :
    t.status = .faulted ↔ ∃ e, bodyOf i (s.preAdvance i.opcode) = .error e := by
  rcases exec_cases h with hok | ⟨e, herr, rfl⟩
  · exact iff_of_false ((bodyOf_effect hok).status_ne_faulted hs) (by simp [hok])
  · exact iff_of_true rfl ⟨e, herr⟩

/-- Settles O26: a body raises on a bad operand or its own fault, and only then does exec enter one. -/
theorem instructionFaultsExactlyWhen : Obligations.InstructionFaultsExactlyWhen := by
  unfold Obligations.InstructionFaultsExactlyWhen
  intro i s t hs h
  rw [exec_faulted_iff hs h, bodyOf_error_iff, Instr.ownFault_iff]

/-! ### O27: faults are precise -/

/-- A step that ends Faulted is one of two fault entries: the fetch's, or one after the fetch on the byte at pc
(60_exceptions.md R155). -/
theorem step_faulted {s t : State} (h : step s = .next t) (ht : t.status = .faulted) :
    254 ≤ s.pc.toNat ∧ t = s.fetchFault ∨
      s.pc.toNat ≤ 253 ∧ ∃ e, t = s.latched.faultAfterFetch (s.mem.read s.pc.toNat) e := by
  obtain ⟨hs, hk⟩ := step_kind h
  cases hk with
  | fetchFault hpc hft => exact .inl ⟨hpc, hft⟩
  | unsupported hpc e _ hft => exact .inr ⟨hpc, _, hft⟩
  | instr hpc i hd hx =>
    rcases exec_effect hx with ⟨e, hft⟩ | heff
    · exact .inr ⟨hpc, e, opcode_of_decodeLatches hd ▸ hft⟩
    · exact absurd ht (heff.status_ne_faulted (by simp [hs]))

/-- Settles O27: both fault entries of `step_faulted` write only latches, the status and the record, and the second moves pc by the
pre-advance. -/
theorem faultsArePrecise : Obligations.FaultsArePrecise := by
  unfold Obligations.FaultsArePrecise
  intro s t h ht
  rcases step_faulted h ht with ⟨hpc, rfl⟩ | ⟨hpc, e, rfl⟩
  · exact ⟨rfl, rfl, rfl, rfl, _, s.fetchFault_faultRecord, rfl, .inl ⟨hpc, rfl, rfl, rfl⟩⟩
  · have hadvance : (s.latched.preAdvance (s.mem.read s.pc.toNat)).pc.toNat =
        s.pc.toNat + 1 + (s.mem.read s.pc.toNat).toNat / 64 := by
      rw [preAdvance_pc_toNat (s := s.latched) hpc, operandCount_eq, State.latched_pc]
    exact ⟨rfl, rfl, rfl, rfl, _, State.faultAfterFetch_faultRecord .., rfl, .inr ⟨hpc, hadvance, rfl⟩⟩

/-! ### O24: the output sink -/

/-- The sink's digits are the library's. -/
theorem digitChar_eq {d : Nat} (hd : d < 10) : digitChar d = d.digitChar := by
  interval_cases d <;> rfl

/-- A byte has one, two or three decimal digits, and the sink's rendering peels them off as the library's does. -/
theorem renderByte_eq (v : Byte) : renderByte v = Nat.toDigits 10 v.toNat ++ ['\n'] := by
  have hv : v.toNat < 256 := v.isLt
  have hones : digitChar (v.toNat % 10) = (v.toNat % 10).digitChar := digitChar_eq (by omega)
  have hsplit (n : Nat) (hn : 10 ≤ n) : Nat.toDigits 10 n = Nat.toDigits 10 (n / 10) ++ [(n % 10).digitChar] :=
    Nat.toDigits_of_base_le (by decide) hn
  rcases (by omega : v.toNat < 10 ∨ 10 ≤ v.toNat ∧ v.toNat < 100 ∨ 100 ≤ v.toNat) with h | ⟨hge, h⟩ | h
  · have hmod : v.toNat % 10 = v.toNat := Nat.mod_eq_of_lt h
    have hlt : v.toNat < 100 := by omega
    rw [renderByte, if_pos hlt, if_pos h, hones, hmod, Nat.toDigits_of_lt_base h]
    rfl
  · have htens : v.toNat / 10 < 10 := by omega
    rw [renderByte, if_pos h, if_neg (Nat.not_lt.2 hge), hones, hsplit _ hge, Nat.toDigits_of_lt_base htens,
      Nat.mod_eq_of_lt htens, digitChar_eq htens]
    rfl
  · have htens : v.toNat / 10 % 10 < 10 := Nat.mod_lt _ (by decide)
    have hhundreds : v.toNat / 100 < 10 := by omega
    have hdiv : v.toNat / 10 / 10 = v.toNat / 100 := Nat.div_div_eq_div_mul ..
    have hge : ¬ v.toNat < 10 := by omega
    rw [renderByte, if_neg (Nat.not_lt.2 h), if_neg hge, hones, hsplit _ (by omega), hsplit _ (by omega), hdiv,
      Nat.toDigits_of_lt_base hhundreds, digitChar_eq htens, digitChar_eq hhundreds]
    rfl

/-- Settles O24: the value of a byte by its number of digits, and what is printed is printed value by value. -/
theorem sinkPrintsDecimalLines : Obligations.SinkPrintsDecimalLines := by
  unfold Obligations.SinkPrintsDecimalLines
  exact ⟨renderByte_eq, fun out v => by simp [renderOutput]⟩

end Machine
end Sys2Proof

/-! ## Reset and boot (70_reset_and_hazards.md) -/

namespace Sys2Proof
namespace Machine

/-! ### O47: what boot leaves in memory -/

/-- A read after bytes that fit are placed: the placed byte from `addr` on, what was there before outside them. -/
theorem Memory.read_placeBytes (bytes : List Byte) {addr : Nat} (hfit : addr + bytes.length ≤ 256) (m : Memory) (b : Nat) :
    (placeBytes addr bytes m).read b = if addr ≤ b then bytes.getD (b - addr) (m.read b) else m.read b := by
  induction bytes generalizing addr m with
  | nil => simp [placeBytes]
  | cons v rest ih =>
    rw [List.length_cons] at hfit
    have hlt : addr < 256 := by omega
    rw [placeBytes, if_pos hlt, ih (by omega), Memory.read_write]
    rcases Nat.lt_trichotomy b addr with hb | rfl | hb
    · rw [if_neg (Nat.not_le.2 (Nat.lt_succ_of_lt hb)), if_neg hb.ne, if_neg (Nat.not_le.2 hb)]
    · simp
    · have hsucc : b - addr = b - (addr + 1) + 1 := by omega
      rw [if_pos (Nat.succ_le_of_lt hb), if_neg hb.ne', if_pos hb.le, hsucc, List.getD_cons_succ]

/-- An image that fits is placed and nothing else changes. -/
theorem loadFrom_of_fits (image : List Byte) {addr : Nat} (hfit : addr + image.length ≤ 256) (s : State) :
    loadFrom addr image s = .ok { s with mem := placeBytes addr image s.mem } := by
  induction image generalizing addr s with
  | nil => rfl
  | cons v rest ih =>
    rw [List.length_cons] at hfit
    have hlt : addr < 256 := by omega
    rw [loadFrom, load, memWrite_of_lt hlt, placeBytes, if_pos hlt]
    exact ih (by omega) _

/-- An image that runs past the end of memory fails at the first address after it (60_exceptions.md R154, decision D23). -/
theorem loadFrom_of_overruns (image : List Byte) {addr : Nat} (haddr : addr ≤ 256) (hlong : 256 < addr + image.length) (s : State) :
    loadFrom addr image s = .error (outOfBoundsAddress 256) := by
  induction image generalizing addr s with
  | nil => exact absurd haddr (Nat.not_le.2 hlong)
  | cons v rest ih =>
    rw [List.length_cons] at hlong
    rcases Nat.lt_or_eq_of_le haddr with hlt | rfl
    · rw [loadFrom, load, memWrite_of_lt hlt]
      exact ih hlt (by omega) _
    · rw [loadFrom, load, memWrite_of_ge (Nat.le_refl 256)]

/-- Settles O47: the two cases of `loadFrom` at address 0, over a memory that reads 0 everywhere. -/
theorem bootLoadsTheImage : Obligations.BootLoadsTheImage := by
  unfold Obligations.BootLoadsTheImage
  intro image
  constructor
  · intro hlen
    have hfit : 0 + image.length ≤ 256 := by rwa [Nat.zero_add]
    refine ⟨_, loadFrom_of_fits image hfit State.reset, rfl, Memory.wf_placeBytes image 0 rfl, fun addr => ?_⟩
    exact (Memory.read_placeBytes image hfit [] addr).trans (if_pos addr.zero_le)
  · intro hlen
    exact loadFrom_of_overruns image (Nat.zero_le 256) (by rwa [Nat.zero_add]) State.reset

/-! ### O40: every reached state meets the invariant -/

/-- Boot answers a state that meets the invariant: reset's, but for a canonical memory. -/
theorem State.Inv.of_boot {image : List Byte} {s : State} (h : boot image = .ok s) : s.Inv := by
  obtain ⟨hfits, htoolong⟩ := bootLoadsTheImage image
  rcases Nat.lt_or_ge 256 image.length with hlen | hlen
  · rw [htoolong hlen] at h
    cases h
  · obtain ⟨_, hboot, hreset, hwf, -⟩ := hfits hlen
    cases h.symm.trans hboot
    rw [hreset]
    exact { resetMeetsTheInvariant with mem_wf := hwf }

/-- What meets the invariant reaches only states that meet it (10_state.md R24, R27, R30). -/
theorem State.Inv.of_reaches {s t : State} (hs : s.Inv) (h : Reaches s t) : t.Inv := by
  induction h with
  | refl => exact hs
  | step _ hstep ih => exact stepKeepsTheInvariant _ _ ih hstep

/-- Settles O40: boot establishes the invariant, and every step keeps it. -/
theorem everyReachedStateMeetsTheInvariant : Obligations.EveryReachedStateMeetsTheInvariant := by
  unfold Obligations.EveryReachedStateMeetsTheInvariant
  intro image s t hboot hreach
  exact (State.Inv.of_boot hboot).of_reaches hreach

end Machine
end Sys2Proof
